-- ==== Sys2Proof/Word.lean ====
section
/-! DEFINITION. The word types of the block: every value is a u8, a u32 or a u64, all unsigned (spec R8, R10). -/

namespace Sys2Proof

/-- `u32` (R8 `WORD`, R10): registers, accumulators, seeds, hashes, addresses. -/
abbrev Word := BitVec 32

/-- `u8` (R10): one byte of the key buffer, one opcode. -/
abbrev Byte := BitVec 8

/-- `u64` (R10, R180): the pool size and the product of the range mapper. -/
abbrev DWord := BitVec 64

end Sys2Proof
end

