-- ==== Sys2Proof/Config.lean ====
section
/-! DEFINITION. What an implementation of the block fixes: the spec's two OPEN parameters as plain data the machine
carries (R8, R50, open parameters of 92_eei_decisions.md), and the size of the host window. -/

namespace Sys2Proof

/-- The OPEN parameters (R8 `KEY_BYTES`, R50 `NHE_BASE`), fixed for one machine: no step changes them. A statement about
every state is therefore a statement about every value of them. -/
structure Config where
  /-- `KEY_BYTES` (R8): the size of the key buffer in bytes. Its constraints are `Config.wf`. -/
  keyBytes : Nat
  /-- `NHE_BASE` (R50): the platform address of window offset 0. -/
  nheBase  : Nat
  deriving DecidableEq, Repr

/-- The parameter values of the machine after `State.reset`: 4096 bytes of key buffer, the value the spec's examples use
(R8), and base 0. DESIGN CHOICE, assumption 3: the spec leaves both open. -/
def Config.reference : Config := { keyBytes := 0x1000, nheBase := 0 }

/-- The number of byte offsets of the NHE window, 2^HOST_ADDR_BITS (R8, R50). -/
abbrev windowBytes : Nat := 0x10000

end Sys2Proof
end

