-- ==== Sys2Proof/Syntax.lean ====
section
/-! DEFINITION. The syntax whole: the nine commands of the opcode table (R82), the names of the thirteen host-visible
registers (R21), one access of the host (R53, R55), and the host-program statements of R88 and R89. -/

namespace Sys2Proof

/-- The commands, one constructor per row of spec/opcode_table.json (R82). A command carries no operand: every operand is
in the registers its operand set names (R80, R84). -/
inductive Instr where
  | nop    -- 0x00, R202
  | mix    -- 0x01, R104
  | hashb  -- 0x02, R125
  | hashw  -- 0x03, R143
  | hash3  -- 0x04, R162
  | hash2  -- 0x05, R163
  | hash1  -- 0x06, R164
  | mapr   -- 0x07, R184
  | pmap   -- 0x08, R185
  deriving DecidableEq, Repr

/-- The thirteen host-visible registers (R21). -/
inductive HostReg where
  | cmd | status | seed | len | kbase | rmin | rmax | arg0 | arg1 | arg2 | res0 | res1 | res2
  deriving DecidableEq, Repr

/-- One move of the Host agent: an access as the bus transaction (window offset, width in bytes, data) of R88, or the
`WAIT` loop of R89, whose control flow is the host's own. -/
inductive HostOp where
  /-- `HostWrite(off, n, v)` (R53). -/
  | write (off n : Nat) (v : Word)
  /-- `HostRead(off, n)` (R55). -/
  | read (off n : Nat)
  /-- `w: RD STATUS -> s ; if s[0] = 1 goto w` (R89). -/
  | wait
  deriving DecidableEq, Repr

/-- The statements of a host program (R88) and its pseudo-statements (R89). -/
inductive HostStmt where
  | wr (r : HostReg) (imm : Word)
  | rd (r : HostReg)
  | wk8 (koff : Nat) (imm : BitVec 8)
  | wk16 (koff : Nat) (imm : BitVec 16)
  | wk32 (koff : Nat) (imm : Word)
  | rk8 (koff : Nat)
  | rk16 (koff : Nat)
  | rk32 (koff : Nat)
  /-- `CMD <mnemonic>`. -/
  | cmd (i : Instr)
  /-- `CMD <word>`, a write of any command word, legal or not (95_test_vectors.md, program P3). -/
  | cmdWord (w : Word)
  | wait
  | run (i : Instr)
  | ldkey (koff : Nat) (bytes : List Byte)
  | ldwords (koff : Nat) (words : List Word)
  deriving DecidableEq, Repr

/-- Whose move is next: the two agents of R18, and the platform that drives reset (R250). -/
inductive Turn where
  | host | engine | reset
  deriving DecidableEq, Repr

end Sys2Proof
end

