-- ==== Sys2Proof/WellFormed.lean ====
section
/-! DEFINITION. The well-formedness checks: the constraints on KEY_BYTES (R8), the form of a host access (R53, R57), the
form of a host statement (R88). A command has no operand field, so nothing of it can be ill-formed (R80, R83). -/

namespace Sys2Proof

/-- A command carries no register number and no immediate (R80, R83), so every term of `Instr` is well formed. -/
def Instr.wf (_ : Instr) : Bool := true

/-- The constraints on `KEY_BYTES` (R8): 4 ≤ KEY_BYTES ≤ 0xF000 and KEY_BYTES mod 4 = 0. -/
def Config.wf (cfg : Config) : Bool :=
  decide (4 ≤ cfg.keyBytes) && decide (cfg.keyBytes ≤ 0xF000) && decide (cfg.keyBytes % 4 = 0)

/-- The widths an access may have, in bytes (R53). -/
def widthOk (n : Nat) : Bool := n == 1 || n == 2 || n == 4

/-- A host access as R53 declares it: an offset inside the window, a width of 1, 2 or 4, a naturally aligned offset (R57),
and for a write a value of n bytes (`v < 2^(8n)`). The machine is total on ill-formed accesses too: it faults on them. -/
def HostOp.wf : HostOp → Bool
  | .write off n v => decide (off < windowBytes) && widthOk n && decide (off % n = 0) && decide (v.toNat < 2 ^ (8 * n))
  | .read off n => decide (off < windowBytes) && widthOk n && decide (off % n = 0)
  | .wait => true

/-- The side conditions of R88 and R89: koff even for a halfword, a multiple of 4 for a word. -/
def HostStmt.wf : HostStmt → Bool
  | .wk16 koff _ => decide (koff % 2 = 0)
  | .rk16 koff => decide (koff % 2 = 0)
  | .wk32 koff _ => decide (koff % 4 = 0)
  | .rk32 koff => decide (koff % 4 = 0)
  | .ldwords koff _ => decide (koff % 4 = 0)
  | .wr _ _ => true
  | .rd _ => true
  | .wk8 _ _ => true
  | .rk8 _ => true
  | .cmd _ => true
  | .cmdWord _ => true
  | .wait => true
  | .run _ => true
  | .ldkey _ _ => true

end Sys2Proof
end

