-- ==== Sys2Proof/Decode.lean ====
section
/-! DEFINITION. The decoder of command words, total on every 32-bit word and rejecting by name (R81, R86), and after it
the encoder, written from the opcode map (R80, R82). -/

namespace Sys2Proof

/-- Why a word is no command: the two kinds of reserved encoding of R86. Either is the architectural error ILLEGAL. -/
inductive DecodeError where
  /-- `w[31:8] ≠ 0`: a word with RSVD set, whatever its opcode. -/
  | reservedBits
  /-- `w[7:0]` in 0x09..0xFF. -/
  | reservedOpcode
  deriving DecidableEq, Repr

/-- The field RSVD of a command word, bits 31:8 (R80). -/
def rsvdField (w : Word) : BitVec 24 := w.extractLsb' 8 24

/-- The field OPCODE of a command word, bits 7:0 (R80). -/
def opcodeField (w : Word) : BitVec 8 := w.extractLsb' 0 8

/-- The opcode map read from opcode to command (R81): the decoder of `LOP` and of the field OPCODE. -/
def decodeOpcode (op : BitVec 8) : Except DecodeError Instr :=
  match op.toNat with
  | 0x00 => .ok .nop
  | 0x01 => .ok .mix
  | 0x02 => .ok .hashb
  | 0x03 => .ok .hashw
  | 0x04 => .ok .hash3
  | 0x05 => .ok .hash2
  | 0x06 => .ok .hash1
  | 0x07 => .ok .mapr
  | 0x08 => .ok .pmap
  | _ => .error .reservedOpcode

/-- `Decode(w)` (R81). -/
def decodeWord (w : Word) : Except DecodeError Instr :=
  if rsvdField w ≠ 0 then .error .reservedBits else decodeOpcode (opcodeField w)

/-- The opcode of each command (R82), the value `Issue` latches in LOP (R200). -/
def opcodeOf : Instr → BitVec 8
  | .nop   => 0x00
  | .mix   => 0x01
  | .hashb => 0x02
  | .hashw => 0x03
  | .hash3 => 0x04
  | .hash2 => 0x05
  | .hash1 => 0x06
  | .mapr  => 0x07
  | .pmap  => 0x08

/-- The command word of each command: OPCODE in bits 7:0, RSVD zero (R80, R82). -/
def encode (i : Instr) : Word := 0#24 ++ opcodeOf i

/-- The command that the decoder reads from the word `w` as spec/opcode_table.json numbers its bits: bit 0 the least
significant bit of the one 32-bit command word (R9, R87). Bits above `nbits` are 0. -/
def decodeTableWord (nbits w : Nat) : Option Instr :=
  let v := w % 2 ^ nbits
  if v < 2 ^ 32 then (decodeWord (BitVec.ofNat 32 v)).toOption else none

end Sys2Proof
end

