-- ==== Sys2Proof/Machine/State.lean ====
section
/-! DEFINITION. The state of the machine as plain data, holding all of R20, the reasons a step can stop, and the state
after reset (R250). -/

namespace Sys2Proof.Machine

/-- A host-visible register that has a written-flag (R39): its contents and the flag. -/
structure FlaggedReg where
  value   : Word
  written : Bool
  deriving DecidableEq, Repr

/-- A register as reset leaves it: its flag clear. The spec gives it no contents (R250). Zero is a DESIGN CHOICE
(assumption 1); no step from a state that keeps the invariant ever reads it (Obligations.UnwrittenContentsNeverRead). -/
def FlaggedReg.unwritten : FlaggedReg := { value := 0, written := false }

/-- The source's HashState: the accumulators a, b, c (R36). -/
structure HashState where
  a : Word
  b : Word
  c : Word
  deriving DecidableEq, Repr

/-- The key buffer KEYMEM (R35) as address and byte pairs, addresses strictly rising. An unlisted address is an unwritten
byte: its written-flag (R39) is clear, and reading it faults. -/
abbrev Memory := List Host.Cell

/-- The architectural errors (R220), all detected at issue. `NONE`, code 0, is the absence of one. Codes 5 to 15 are
reserved and never produced. -/
inductive ErrorCode where
  /-- Code 1: the word is no command (R86). -/
  | illegal
  /-- Code 2: RMIN > RMAX, unsigned, on MAPR or PMAP (R182, R222). -/
  | range
  /-- Code 3: the key runs past the key buffer (R125, R143). -/
  | keyBounds
  /-- Code 4: HASHW with KBASE mod 4 ≠ 0 (R143). -/
  | keyAlign
  deriving DecidableEq, Repr

/-- The model-fault reasons, the closed set of R228 and R230: host misuses for which the spec gives the hardware no
behaviour. All are safe: the run ends, so nothing can be proved of what follows. -/
inductive Fault where
  /-- F_BUSY_ACCESS: raised by any host access while BUSY = 1 but a 32-bit read of STATUS (R53, R55, R260). Safe. -/
  | busyAccess
  /-- F_BAD_ACCESS: raised by a host access of a wrong width or a misaligned offset, at a mapped offset (R57). Safe. -/
  | badAccess
  /-- F_UNMAPPED: raised by a host access to an unmapped offset (R51). Safe. -/
  | unmapped
  /-- F_RO_WRITE: raised by a host write to STATUS, RES0, RES1 or RES2 (R56). Safe. -/
  | roWrite
  /-- F_UNINIT_REG: raised by a host read of a register whose written-flag is clear (R55), and by an issue whose operand set
  holds such a register (R200). The spec states the stop itself (R39, R228; U11 of 93_implementation_defined.md). Safe. -/
  | uninitReg
  /-- F_UNINIT_KEY: raised by a host read, or by the perform step of HASHB or HASHW, of a key byte whose written-flag is
  clear (R39, R55, R60). Safe. -/
  | uninitKey
  deriving DecidableEq, Repr

/-- The reasons for a refusal. None is reached from a state that keeps the invariant `State.Inv`. -/
inductive Refusal where
  /-- Raised by an arm of `exec` whose command has no meaning yet, by name. No arm raises it. Safe. -/
  | notModelled (mnemonic : String)
  /-- Raised by the Engine's turn with BUSY = 1 and a LOP that is no opcode: the spec derives that this does not occur
  ("LOP always holds an opcode accepted by Issue", R201) and gives it no arm. Safe. -/
  | lopNotAnOpcode
  /-- Raised by the perform step of MAPR or PMAP with RMIN > RMAX: issue has rejected every such command (R182), and
  `MapInto` "requires lo <= hi" (R180, U3 of 93_implementation_defined.md). Safe. -/
  | rangePrecondition
  deriving DecidableEq, Repr

/-- The state (R20): the host-visible registers, the key buffer, the Engine's internal state, the accumulators, the
written-flags and the fault mark, and beside them the agents' side of the machine: the parameters, the host program, what
its reads returned, and whose move is next. CMD holds no state of its own (R22). -/
structure State where
  /-- The OPEN parameters (R8, R50). No step changes them. -/
  cfg    : Config
  /-- STATUS (R23), held as the word the host reads. Its bit 0 is the Engine's BUSY bit (R24, R37). -/
  status : Word
  /-- SEED (R28), the one operand register without a written-flag. -/
  seed   : Word
  /-- LEN (R29). -/
  len    : FlaggedReg
  /-- KBASE (R30). -/
  kbase  : FlaggedReg
  /-- RMIN (R31). -/
  rmin   : FlaggedReg
  /-- RMAX (R32). -/
  rmax   : FlaggedReg
  /-- ARG0 (R33). -/
  arg0   : FlaggedReg
  /-- ARG1 (R33). -/
  arg1   : FlaggedReg
  /-- ARG2 (R33). -/
  arg2   : FlaggedReg
  /-- RES0 (R34). -/
  res0   : FlaggedReg
  /-- RES1 (R34). -/
  res1   : FlaggedReg
  /-- RES2 (R34). -/
  res2   : FlaggedReg
  /-- KEYMEM (R35) with its written-flags (R39). -/
  keymem : Memory
  /-- LOP (R37), the opcode of the accepted command. It has no meaning while BUSY = 0. -/
  lop    : BitVec 8
  /-- The accumulators a, b, c (R36), which exist only inside a perform step: none outside one. -/
  acc    : Option HashState
  /-- FAULT (R40), the model-only mark. Once it is set no step is taken. -/
  fault  : Option Fault
  /-- The Host agent (R7, R18): the accesses it has still to make, in its program's order (R63). -/
  program  : List HostOp
  /-- The Host agent: the values its reads returned, oldest first (R55). -/
  reads    : List Word
  /-- Whose move is next, in order: the total order of Host accesses and Engine steps (R63), as plain data. When it is
  used up the Engine moves if it can, else the Host (R204). -/
  schedule : List Turn
  deriving DecidableEq, Repr

/-- The machine right after reset (R250), for given parameters: STATUS and SEED zero, every written-flag clear, no key byte
written, no accumulators, no fault mark. LOP is unspecified; zero is a DESIGN CHOICE (assumption 2). The host has no
program yet: it brings its own (R38). -/
def State.resetWith (cfg : Config) : State where
  cfg    := cfg
  status := 0x00000000
  seed   := 0x00000000
  len    := .unwritten
  kbase  := .unwritten
  rmin   := .unwritten
  rmax   := .unwritten
  arg0   := .unwritten
  arg1   := .unwritten
  arg2   := .unwritten
  res0   := .unwritten
  res1   := .unwritten
  res2   := .unwritten
  keymem := []
  lop    := 0
  acc    := none
  fault  := none
  program  := []
  reads    := []
  schedule := []

/-- The machine right after reset, with the parameters the spec's examples use (assumption 3). -/
def State.reset : State := State.resetWith Config.reference

end Sys2Proof.Machine
end

