-- ==== Sys2Proof/Machine/Flags.lean ====
section
/-! DEFINITION. The STATUS word: its fields (R23 to R27) and the values the transitions give it (R200, R201, R223). It is
the block's only flags register. -/

namespace Sys2Proof.Machine

/-- BUSY, bit 0 (R24). -/
def State.busy (s : State) : Bool := s.status.getLsbD 0

/-- DONE, bit 1 (R25). -/
def State.done (s : State) : Bool := s.status.getLsbD 1

/-- ERR, bit 2 (R26). -/
def State.err (s : State) : Bool := s.status.getLsbD 2

/-- ECODE, bits 7:4 (R27). -/
def State.ecode (s : State) : BitVec 4 := s.status.extractLsb' 4 4

/-- The code of an architectural error (R220). -/
def ErrorCode.code : ErrorCode → BitVec 4
  | .illegal   => 1
  | .range     => 2
  | .keyBounds => 3
  | .keyAlign  => 4

/-- STATUS after an accepted issue: BUSY=1, DONE=0, ERR=0, ECODE=0 (R200). -/
def statusBusy : Word := 0x00000001

/-- STATUS after a perform step: BUSY=0, DONE=1, ERR=0, ECODE=0 (R201). -/
def statusDone : Word := 0x00000002

/-- STATUS after a rejection: BUSY=0, DONE=1, ERR=1, ECODE=code (R223). -/
def statusRejected (e : ErrorCode) : Word := 0x00000006 ||| (e.code.setWidth 32 <<< 4)

/-- The legal values of STATUS (R23): idle since reset, busy, done, or rejected with a code in 1..4. -/
def statusLegal (v : Word) : Bool :=
  v == 0 || v == statusBusy || v == statusDone || v == statusRejected .illegal || v == statusRejected .range ||
    v == statusRejected .keyBounds || v == statusRejected .keyAlign

end Sys2Proof.Machine
end

