-- ==== Sys2Proof/Machine/Ops.lean ====
section
/-! DEFINITION. The named operations over the key buffer and the registers, and the transitions of one command: acceptance
and rejection at issue, and the end of a perform step. A rejection is the block's only architectural exception (R223); it
saves nothing and enters no handler, so there is no return from it (R224, R225). -/

namespace Sys2Proof.Machine

/-- The outcome of one step, and of one command. -/
abbrev Result := Host.Outcome State Fault Refusal

/-- A key byte as a u32, zero-extended (R83, R121). -/
def zext32 (b : Byte) : Word := b.setWidth 32

/-- `zext_64` (R12). -/
def zext64 (w : Word) : DWord := w.setWidth 64

/-- `trunc_32` (R12). -/
def trunc32 (v : DWord) : Word := v.setWidth 32

/-! ## Byte order (R13, R54, R61) -/

/-- The bytes of a list as a little-endian sum, the first byte shifted by `shift` (R13: `b0 + b1<<8 + b2<<16 + b3<<24`). -/
def leSum (shift : Nat) : List Byte → Word
  | [] => 0
  | b :: bs => (zext32 b <<< shift) + leSum (shift + 8) bs

/-- The n low-order bytes of a word, least significant first (R13, R54): byte i is `v[8i+7 : 8i]`. -/
def leBytes (n : Nat) (v : Word) : List Byte := (List.range n).map fun i => v.extractLsb' (8 * i) 8

/-! ## The key buffer (R35) -/

/-- The canonical form: addresses strictly rising. -/
def Memory.wf : Memory → Bool
  | [] => true
  | [_] => true
  | c :: d :: m => decide (c.1 < d.1) && Memory.wf (d :: m)

/-- Reads one byte. None where the byte's written-flag is clear (R39). -/
def Memory.read : Memory → Nat → Option Byte
  | [], _ => none
  | (k, b) :: m, a => if k = a then some b else Memory.read m a

/-- Stores one byte and sets its written-flag, keeping the canonical form. -/
def Memory.write (a : Nat) (v : Byte) : Memory → Memory
  | [] => [(a, v)]
  | (k, b) :: m => if a < k then (a, v) :: (k, b) :: m else if a = k then (a, v) :: m else (k, b) :: Memory.write a v m

/-- Reads n bytes from address a on. None where some byte of them is unwritten. -/
def Memory.readBytes (m : Memory) (a : Nat) : Nat → Option (List Byte)
  | 0 => some []
  | n + 1 =>
    match m.read a with
    | none => none
    | some b => (Memory.readBytes m (a + 1) n).map (b :: ·)

/-- Stores bytes from address a on. -/
def Memory.writeBytes (m : Memory) (a : Nat) : List Byte → Memory
  | [] => m
  | b :: bs => Memory.writeBytes (Memory.write a b m) (a + 1) bs

/-- `MemRead(addr, n)` (R13). None where some byte of it is unwritten (R39). -/
def Memory.memRead (m : Memory) (a n : Nat) : Option Word := (m.readBytes a n).map (leSum 0)

/-- `MemWrite(addr, n, v)` (R13, R54). -/
def Memory.memWrite (m : Memory) (a n : Nat) (v : Word) : Memory := m.writeBytes a (leBytes n v)

/-- The words of a word key: n little-endian words from address a on (R60). -/
def Memory.readWords (m : Memory) (a : Nat) : Nat → Option (List Word)
  | 0 => some []
  | n + 1 =>
    match m.memRead a 4 with
    | none => none
    | some w => (Memory.readWords m (a + 4) n).map (w :: ·)

/-! ## The registers (R21) -/

/-- `x[R]` (R13). CMD reads 0 (R22). -/
def State.regVal (s : State) : HostReg → Word
  | .cmd    => 0
  | .status => s.status
  | .seed   => s.seed
  | .len    => s.len.value
  | .kbase  => s.kbase.value
  | .rmin   => s.rmin.value
  | .rmax   => s.rmax.value
  | .arg0   => s.arg0.value
  | .arg1   => s.arg1.value
  | .arg2   => s.arg2.value
  | .res0   => s.res0.value
  | .res1   => s.res1.value
  | .res2   => s.res2.value

/-- Whether x[R] holds a value: its written-flag (R39), true of the three registers that have none. -/
def State.regWritten (s : State) : HostReg → Bool
  | .cmd    => true
  | .status => true
  | .seed   => true
  | .len    => s.len.written
  | .kbase  => s.kbase.written
  | .rmin   => s.rmin.written
  | .rmax   => s.rmax.written
  | .arg0   => s.arg0.written
  | .arg1   => s.arg1.written
  | .arg2   => s.arg2.written
  | .res0   => s.res0.written
  | .res1   => s.res1.written
  | .res2   => s.res2.written

/-- `x[R] <- v` (R13), setting R's written-flag (R39). CMD holds no state, so a write to it stores nothing (R22). -/
def State.writeReg (s : State) (r : HostReg) (v : Word) : State :=
  match r with
  | .cmd    => s
  | .status => { s with status := v }
  | .seed   => { s with seed := v }
  | .len    => { s with len := ⟨v, true⟩ }
  | .kbase  => { s with kbase := ⟨v, true⟩ }
  | .rmin   => { s with rmin := ⟨v, true⟩ }
  | .rmax   => { s with rmax := ⟨v, true⟩ }
  | .arg0   => { s with arg0 := ⟨v, true⟩ }
  | .arg1   => { s with arg1 := ⟨v, true⟩ }
  | .arg2   => { s with arg2 := ⟨v, true⟩ }
  | .res0   => { s with res0 := ⟨v, true⟩ }
  | .res1   => { s with res1 := ⟨v, true⟩ }
  | .res2   => { s with res2 := ⟨v, true⟩ }

/-! ## The transitions of a command -/

/-- `raise Reject(code)` (R223): the one shared taking of an architectural error. Only STATUS changes. -/
def State.reject (s : State) (e : ErrorCode) : State := s.writeReg .status (statusRejected e)

/-- The acceptance that ends an issue (R200): LOP takes the opcode, STATUS becomes busy. -/
def State.accept (s : State) (i : Instr) : State := { s.writeReg .status statusBusy with lop := opcodeOf i }

/-- The accumulators take the value h, inside a perform step (R36). -/
def State.loadAcc (s : State) (h : HashState) : State := { s with acc := some h }

/-- The end of every perform step: the accumulators are discarded (R36) and STATUS becomes done (R201). -/
def State.finishPerform (s : State) : State := { s.writeReg .status statusDone with acc := none }

/-- `x[R] <- c` of the accumulators: how a hash leaves a perform step (R34, R85). -/
def State.storeC (s : State) (r : HostReg) : State :=
  match s.acc with
  | some h => s.writeReg r h.c
  | none => s

/-- `x[RES0] <- a; x[RES1] <- b; x[RES2] <- c` of the accumulators (R104). -/
def State.storeTriple (s : State) : State :=
  match s.acc with
  | some h => ((s.writeReg .res0 h.a).writeReg .res1 h.b).writeReg .res2 h.c
  | none => s

/-- Platform reset (R250): NHE takes its reset state, whatever it was doing; a command in progress is abandoned. The
parameters stay, and the Host agent, which is not NHE, keeps its program and what it has read. -/
def State.platformReset (s : State) : State :=
  { State.resetWith s.cfg with program := s.program, reads := s.reads, schedule := s.schedule }

/-- Recording a model fault in the mark FAULT (R13, R40). Nothing else changes: STATUS keeps its value (R201, R228). -/
def State.markFault (s : State) (r : Fault) : State := { s with fault := some r }

end Sys2Proof.Machine
end

