-- ==== Sys2Proof/Machine/Operands.lean ====
section
/-! DEFINITION. Operands and results: the operand set and the result set of each command (R84, R85), and the register map
(R21). No command has an immediate or a register number (R83). -/

namespace Sys2Proof

/-- The window offset of a register (R21). -/
def HostReg.offset : HostReg → Nat
  | .cmd    => 0x000
  | .status => 0x004
  | .seed   => 0x008
  | .len    => 0x00C
  | .kbase  => 0x010
  | .rmin   => 0x014
  | .rmax   => 0x018
  | .arg0   => 0x01C
  | .arg1   => 0x020
  | .arg2   => 0x024
  | .res0   => 0x028
  | .res1   => 0x02C
  | .res2   => 0x030

/-- The register at a window offset (R21, R51). None at an offset that starts no register. -/
def HostReg.atOffset : Nat → Option HostReg
  | 0x000 => some .cmd
  | 0x004 => some .status
  | 0x008 => some .seed
  | 0x00C => some .len
  | 0x010 => some .kbase
  | 0x014 => some .rmin
  | 0x018 => some .rmax
  | 0x01C => some .arg0
  | 0x020 => some .arg1
  | 0x024 => some .arg2
  | 0x028 => some .res0
  | 0x02C => some .res1
  | 0x030 => some .res2
  | _ => none

/-- The registers a host write stores to (R21 `RW`): all but CMD, which issues, and the read-only ones. -/
def HostReg.readWrite : HostReg → Bool
  | .seed | .len | .kbase | .rmin | .rmax | .arg0 | .arg1 | .arg2 => true
  | .cmd | .status | .res0 | .res1 | .res2 => false

end Sys2Proof

namespace Sys2Proof.Machine

/-- The operand set of a command, its registers (R84). The key bytes of HASHB and HASHW are read only by the perform
step. -/
def operandSet : Instr → List HostReg
  | .nop   => []
  | .mix   => [.arg0, .arg1, .arg2]
  | .hashb => [.seed, .len, .kbase]
  | .hashw => [.seed, .len, .kbase]
  | .hash3 => [.arg0, .arg1, .arg2, .seed]
  | .hash2 => [.arg0, .arg1, .seed]
  | .hash1 => [.arg0, .seed]
  | .mapr  => [.arg0, .rmin, .rmax]
  | .pmap  => [.arg0, .seed, .rmin, .rmax]

/-- The result set of a command (R85). -/
def resultSet : Instr → List HostReg
  | .nop   => []
  | .mix   => [.res0, .res1, .res2]
  | .hashb => [.res0]
  | .hashw => [.res0]
  | .hash3 => [.res0]
  | .hash2 => [.res0]
  | .hash1 => [.res0]
  | .mapr  => [.res0]
  | .pmap  => [.res0, .res1]

/-- Whether every register of the operand set holds a value (R39, R200). -/
def operandsWritten (i : Instr) (s : State) : Bool := (operandSet i).all s.regWritten

end Sys2Proof.Machine
end

