-- ==== Sys2Proof/Machine/Control.lean ====
section
/-! DEFINITION. The life of a command (R200, R201): its issue and its perform step, and NOP (R202). A command is issued
inside the host's write to CMD, with BUSY = 0, and performed by the Engine's own later step, with BUSY = 1; its meaning
says what it does in either. -/

namespace Sys2Proof.Machine

/-- The check of an issue that rejects, by command (R200, R220): the first that applies, KEY_ALIGN before KEY_BOUNDS
(R221). The sums are exact, the comparison of RMIN and RMAX unsigned. -/
def issueCheck (i : Instr) (s : State) : Option ErrorCode :=
  match i with
  | .hashb =>
    if (s.regVal .kbase).toNat + (s.regVal .len).toNat > s.cfg.keyBytes then some .keyBounds else none
  | .hashw =>
    if (s.regVal .kbase).toNat % 4 ≠ 0 then some .keyAlign
    else if (s.regVal .kbase).toNat + 4 * (s.regVal .len).toNat > s.cfg.keyBytes then some .keyBounds
    else none
  | .mapr | .pmap => if (s.regVal .rmax).toNat < (s.regVal .rmin).toNat then some .range else none
  | .nop | .mix | .hash3 | .hash2 | .hash1 => none

/-- `Issue` of a decoded command (R200): the operand registers must hold values, then the command's check rejects or the
Engine accepts. No result is written and no accumulator touched. -/
def issue (i : Instr) (s : State) : Result :=
  if operandsWritten i s then
    match issueCheck i s with
    | some e => .next (s.reject e)
    | none => .next (s.accept i)
  else .fault .uninitReg

/-- A command's meaning from its perform step: issue while the Engine is idle, perform while it is busy (R200, R201). -/
def command (i : Instr) (perform : State → Result) (s : State) : Result :=
  if s.busy then perform s else issue i s

/-- A perform step that leaves the accumulators at h, writes `x[RES0] <- c` and ends (R125, R143, R162 to R164). -/
def performHash (h : HashState) (s : State) : State := ((s.loadAcc h).storeC .res0).finishPerform

/-- NOP (R202): its perform step reads and writes no register and no key byte. -/
def execNop (s : State) : Result := command .nop (fun s => .next s.finishPerform) s

end Sys2Proof.Machine
end

