-- ==== Sys2Proof/Machine/MixCore.lean ====
section
/-! DEFINITION. MixCore and the MIX command (R100 to R104). -/

namespace Sys2Proof.Machine

/-- `GOLDEN` (R8, R120): the initial value of the accumulators a and b. -/
def golden : Word := 0x9e3779b9#32

/-- A line that updates a: `a <- a - b; a <- a - c; a <- a ^ (c >> n)` (R100 lines 1, 4, 7). -/
def HashState.lineA (n : Nat) (h : HashState) : HashState := { h with a := (h.a - h.b - h.c) ^^^ (h.c >>> n) }

/-- A line that updates b: `b <- b - c; b <- b - a; b <- b ^ (a << n)` (R100 lines 2, 5, 8). -/
def HashState.lineB (n : Nat) (h : HashState) : HashState := { h with b := (h.b - h.c - h.a) ^^^ (h.a <<< n) }

/-- A line that updates c: `c <- c - a; c <- c - b; c <- c ^ (b >> n)` (R100 lines 3, 6, 9). -/
def HashState.lineC (n : Nat) (h : HashState) : HashState := { h with c := (h.c - h.a - h.b) ^^^ (h.b >>> n) }

/-- `Mix` (R100): the nine lines in order, with the shift amounts of R101. -/
def mix (h : HashState) : HashState :=
  let h1 := h.lineA 13
  let h2 := h1.lineB 8
  let h3 := h2.lineC 13
  let h4 := h3.lineA 12
  let h5 := h4.lineB 16
  let h6 := h5.lineC 5
  let h7 := h6.lineA 3
  let h8 := h7.lineB 10
  h8.lineC 15

/-- The inverse of a line that updates a (R102): `a <- ((a ^ (c >> n)) + c) + b`. -/
def HashState.unlineA (n : Nat) (h : HashState) : HashState := { h with a := (h.a ^^^ (h.c >>> n)) + h.c + h.b }

/-- The inverse of a line that updates b (R102). -/
def HashState.unlineB (n : Nat) (h : HashState) : HashState := { h with b := (h.b ^^^ (h.a <<< n)) + h.a + h.c }

/-- The inverse of a line that updates c (R102). -/
def HashState.unlineC (n : Nat) (h : HashState) : HashState := { h with c := (h.c ^^^ (h.b >>> n)) + h.b + h.a }

/-- `Unmix` (R102): the lines inverted, from 9 back to 1. No command computes it; it is the spec's check of `Mix`. -/
def unmix (h : HashState) : HashState :=
  let h8 := h.unlineC 15
  let h7 := h8.unlineB 10
  let h6 := h7.unlineA 3
  let h5 := h6.unlineC 5
  let h4 := h5.unlineB 16
  let h3 := h4.unlineA 12
  let h2 := h3.unlineC 13
  let h1 := h2.unlineB 8
  h1.unlineA 13

/-- The perform step of MIX with the accumulators at h: the triple to RES0, RES1, RES2 (R104). -/
def performMix (h : HashState) (s : State) : State := (s.loadAcc h).storeTriple.finishPerform

/-- MIX (R104): one `Mix` of ARG0, ARG1, ARG2, the whole triple written to RES0, RES1, RES2. -/
def execMix (s : State) : Result :=
  command .mix
    (fun s => .next (performMix (mix ⟨s.regVal .arg0, s.regVal .arg1, s.regVal .arg2⟩) s))
    s

end Sys2Proof.Machine
end

