-- ==== Sys2Proof/Machine/ByteHash.lean ====
section
/-! DEFINITION. VariableLengthHash and the HASHB command (R120 to R126). -/

namespace Sys2Proof.Machine

/-- The accumulators at the start of a keyed hash: a = b = GOLDEN, c = seed (R120, R140). -/
def hashStart (seed : Word) : HashState := ⟨golden, golden, seed⟩

/-- One full chunk (R120): its twelve bytes as three little-endian words (R61) added to a, b, c, then `Mix`. -/
def absorbChunk (k : List Byte) (h : HashState) : HashState :=
  mix ⟨h.a + leSum 0 (k.take 4), h.b + leSum 0 ((k.drop 4).take 4), h.c + leSum 0 ((k.drop 8).take 4)⟩

/-- The loop over the full chunks (R120): the accumulators after them, and the tail of the key. -/
def chunkLoop : Nat → List Byte → HashState → HashState × List Byte
  | 0, k, h => (h, k)
  | m + 1, k, h => chunkLoop m (k.drop 12) (absorbChunk k h)

/-- The accumulator a tail byte is added to (R122). -/
inductive Accumulator where
  | a | b | c
  deriving DecidableEq, Repr

/-- `acc <- acc + v` on one accumulator. -/
def HashState.addTo (h : HashState) (x : Accumulator) (v : Word) : HashState :=
  match x with
  | .a => { h with a := h.a + v }
  | .b => { h with b := h.b + v }
  | .c => { h with c := h.c + v }

/-- `TAIL` (R122), by tail byte position 0 to 10. Bytes 8, 9 and 10 are shifted by 8, 16 and 24: bits 7:0 of c take the
length alone (C2 of 90_conflicts.md). -/
def tailTable : List (Accumulator × Nat) :=
  [(.a, 0), (.a, 8), (.a, 16), (.a, 24), (.b, 0), (.b, 8), (.b, 16), (.b, 24), (.c, 8), (.c, 16), (.c, 24)]

/-- The contribution of the tail byte at position p (R120). -/
def addTailByte (p : Nat) (b : Byte) (h : HashState) : HashState :=
  match tailTable[p]? with
  | some (x, sh) => h.addTo x (zext32 b <<< sh)
  | none => h

/-- `for p from n-1 downto 0` over the tail (R120, R122). -/
def foldTail : Nat → List Byte → HashState → HashState
  | 0, _, h => h
  | p + 1, t, h => foldTail p t (addTailByte p (t.getD p 0) h)

/-- The accumulators before the final mix of `HashBytes` (R120): the full chunks, then the TOTAL length added to c (R123),
then the tail. -/
def hashBytesPreFinal (k : List Byte) (len seed : Word) : HashState :=
  let r := chunkLoop (len.toNat / 12) k (hashStart seed)
  foldTail (len.toNat % 12) r.2 (r.1.addTo .c len)

/-- The accumulators `HashBytes` ends with (R120). -/
def hashBytesState (k : List Byte) (len seed : Word) : HashState := mix (hashBytesPreFinal k len seed)

/-- `HashBytes(k, L, seed)` (R120). -/
def hashBytes (k : List Byte) (len seed : Word) : Word := (hashBytesState k len seed).c

/-- HASHB (R125): hashes the LEN key bytes from KBASE on with seed SEED. An unwritten key byte is F_UNINIT_KEY. -/
def execHashb (s : State) : Result :=
  command .hashb
    (fun s =>
      match s.keymem.readBytes (s.regVal .kbase).toNat (s.regVal .len).toNat with
      | some k => .next (performHash (hashBytesState k (s.regVal .len) (s.regVal .seed)) s)
      | none => .fault .uninitKey)
    s

end Sys2Proof.Machine
end

