-- ==== Sys2Proof/Machine/WordHash.lean ====
section
/-! DEFINITION. WordHash and the HASHW command (R140 to R145). -/

namespace Sys2Proof.Machine

/-- One full group of three words (R140): added to a, b, c, then `Mix`. -/
def absorbGroup (k : List Word) (h : HashState) : HashState :=
  mix ⟨h.a + k.getD 0 0, h.b + k.getD 1 0, h.c + k.getD 2 0⟩

/-- The loop over the full groups (R140): the accumulators after them, and the tail of the key. -/
def groupLoop : Nat → List Word → HashState → HashState × List Word
  | 0, k, h => (h, k)
  | m + 1, k, h => groupLoop m (k.drop 3) (absorbGroup k h)

/-- The tail of n words (R142): the second to b if there are two, then the first to a if there is one. -/
def foldWordTail (n : Nat) (t : List Word) (h : HashState) : HashState :=
  let h := if n = 2 then h.addTo .b (t.getD 1 0) else h
  if 1 ≤ n then h.addTo .a (t.getD 0 0) else h

/-- The accumulators before the final mix of `HashWords` (R140). The length term is `L * 4`, a u32 product (R141). -/
def hashWordsPreFinal (k : List Word) (len seed : Word) : HashState :=
  let r := groupLoop (len.toNat / 3) k (hashStart seed)
  foldWordTail (len.toNat % 3) r.2 (r.1.addTo .c (len * 4))

/-- The accumulators `HashWords` ends with (R140). -/
def hashWordsState (k : List Word) (len seed : Word) : HashState := mix (hashWordsPreFinal k len seed)

/-- `HashWords(k, L, seed)` (R140). -/
def hashWords (k : List Word) (len seed : Word) : Word := (hashWordsState k len seed).c

/-- HASHW (R143): hashes the LEN little-endian key words from KBASE on with seed SEED. An unwritten key byte is
F_UNINIT_KEY. -/
def execHashw (s : State) : Result :=
  command .hashw
    (fun s =>
      match s.keymem.readWords (s.regVal .kbase).toNat (s.regVal .len).toNat with
      | some k => .next (performHash (hashWordsState k (s.regVal .len) (s.regVal .seed)) s)
      | none => .fault .uninitKey)
    s

end Sys2Proof.Machine
end

