-- ==== Sys2Proof/Machine/FixedHash.lean ====
section
/-! DEFINITION. FixedWordHash and the HASH3, HASH2, HASH1 commands (R160 to R165). -/

namespace Sys2Proof.Machine

/-- The accumulators `Hash3` ends with (R160): GOLDEN added to a and b, the seed to c, ONE `Mix`, no length term (R161). -/
def hash3State (a b c seed : Word) : HashState := mix ⟨a + golden, b + golden, c + seed⟩

/-- `Hash3(a, b, c, seed)` (R160). -/
def hash3 (a b c seed : Word) : Word := (hash3State a b c seed).c

/-- HASH3 (R162). -/
def execHash3 (s : State) : Result :=
  command .hash3
    (fun s => .next (performHash (hash3State (s.regVal .arg0) (s.regVal .arg1) (s.regVal .arg2) (s.regVal .seed)) s))
    s

/-- HASH2 (R163): the third word is 0, and ARG2 is not read. -/
def execHash2 (s : State) : Result :=
  command .hash2 (fun s => .next (performHash (hash3State (s.regVal .arg0) (s.regVal .arg1) 0 (s.regVal .seed)) s)) s

/-- HASH1 (R164): the second and third words are 0, and ARG1 and ARG2 are not read. -/
def execHash1 (s : State) : Result :=
  command .hash1 (fun s => .next (performHash (hash3State (s.regVal .arg0) 0 0 (s.regVal .seed)) s)) s

end Sys2Proof.Machine
end

