-- ==== Sys2Proof/Machine/RangeMap.lean ====
section
/-! DEFINITION. RangeMapper and the MAPR and PMAP commands (R180 to R186). -/

namespace Sys2Proof.Machine

/-- The pool size `P` (R180), 1 .. 2^32 for lo ≤ hi, in u64: never in 32 bits, where the full range would wrap to 0
(R181). -/
def poolSize (lo hi : Word) : DWord := zext64 hi - zext64 lo + 1

/-- `scaled` (R180): the product's upper half. -/
def scaledHash (h : Word) (p : DWord) : Word := trunc32 ((zext64 h * p) >>> 32)

/-- `MapInto(h, lo, hi)` (R180), for lo ≤ hi. -/
def mapInto (h lo hi : Word) : Word := lo + scaledHash h (poolSize lo hi)

/-- `MapInto` under its precondition lo ≤ hi (R180, R182): never applied to other bounds. Issue has rejected them. -/
def mapChecked (h lo hi : Word) : Option Word := if lo.toNat ≤ hi.toNat then some (mapInto h lo hi) else none

/-- The perform step of MAPR with the mapped address m (R184). -/
def performMapr (m : Word) (s : State) : State := (s.writeReg .res0 m).finishPerform

/-- The perform step of PMAP with the accumulators at h and the mapped address m (R185): the hash to RES1, m to RES0. -/
def performPmap (h : HashState) (m : Word) (s : State) : State :=
  (((s.loadAcc h).storeC .res1).writeReg .res0 m).finishPerform

/-- MAPR (R184): maps ARG0 into [RMIN, RMAX]. SEED is not read. -/
def execMapr (s : State) : Result :=
  command .mapr
    (fun s =>
      match mapChecked (s.regVal .arg0) (s.regVal .rmin) (s.regVal .rmax) with
      | some m => .next (performMapr m s)
      | none => .refused .rangePrecondition)
    s

/-- PMAP (R185): the 2-word hash of (ARG0, 0) with seed SEED goes to RES1, and mapped into [RMIN, RMAX] to RES0. -/
def execPmap (s : State) : Result :=
  command .pmap
    (fun s =>
      let h := hash3State (s.regVal .arg0) 0 0 (s.regVal .seed)
      match mapChecked h.c (s.regVal .rmin) (s.regVal .rmax) with
      | some m => .next (performPmap h m s)
      | none => .refused .rangePrecondition)
    s

end Sys2Proof.Machine
end

