-- ==== Sys2Proof/Machine/Dispatch.lean ====
section
/-! DEFINITION. The meaning of each command: one arm per constructor (R201's case, and R200's issue of the same command). -/

namespace Sys2Proof.Machine

def exec (i : Instr) (s : State) : Host.Outcome State Fault Refusal :=
  match i with
  | .nop => Sys2Proof.Machine.execNop s
  | .mix => Sys2Proof.Machine.execMix s
  | .hashb => Sys2Proof.Machine.execHashb s
  | .hashw => Sys2Proof.Machine.execHashw s
  | .hash3 => Sys2Proof.Machine.execHash3 s
  | .hash2 => Sys2Proof.Machine.execHash2 s
  | .hash1 => Sys2Proof.Machine.execHash1 s
  | .mapr => Sys2Proof.Machine.execMapr s
  | .pmap => Sys2Proof.Machine.execPmap s

end Sys2Proof.Machine
end

