-- ==== Sys2Proof/Machine/HostPort.lean ====
section
/-! DEFINITION. The host's accesses (R50 to R60), the turns of the two agents and of the platform (R18, R63, R250), and
how a command comes to stand where the next step runs it. -/

namespace Sys2Proof.Machine

/-- The window offset of key byte 0 (R51, R52). -/
def keyWindowBase : Nat := 0x1000

/-- The first window offset past the thirteen registers (R51). -/
def registerEnd : Nat := 0x0034

/-- Whether a window offset lies in the key window (R51). -/
def State.inKeyWindow (s : State) (off : Nat) : Bool :=
  decide (keyWindowBase ≤ off) && decide (off < keyWindowBase + s.cfg.keyBytes)

/-- `Issue(w)` (R200): an illegal word is rejected, a command is issued by its meaning. Run with BUSY = 0. -/
def issueWord (w : Word) (s : State) : Result :=
  match decodeWord w with
  | .ok i => exec i s
  | .error _ => .next (s.reject .illegal)

/-- `x[R] <- v` as a host write does it (R53): CMD issues, STATUS and the results are read-only (R56). -/
def hostWriteReg (r : HostReg) (v : Word) (s : State) : Result :=
  match r with
  | .cmd => issueWord v s
  | .status | .res0 | .res1 | .res2 => .fault .roWrite
  | .seed | .len | .kbase | .rmin | .rmax | .arg0 | .arg1 | .arg2 => .next (s.writeReg r v)

/-- `HostWrite(off, n, v)` (R53). -/
def hostWrite (off n : Nat) (v : Word) (s : State) : Result :=
  if s.busy then .fault .busyAccess
  else if s.inKeyWindow off then
    if widthOk n && off % n == 0 then .next { s with keymem := s.keymem.memWrite (off - keyWindowBase) n v }
    else .fault .badAccess
  else if off < registerEnd then
    if n == 4 && off % 4 == 0 then
      match HostReg.atOffset off with
      | some r => hostWriteReg r v s
      | none => .fault .unmapped
    else .fault .badAccess
  else .fault .unmapped

/-- `HostRead(off, n)` (R55): the value read, or the fault raised. A read changes no state of NHE. -/
def hostRead (off n : Nat) (s : State) : Except Fault Word :=
  if s.busy && !(off == HostReg.offset .status && n == 4) then .error .busyAccess
  else if s.inKeyWindow off then
    if widthOk n && off % n == 0 then
      match s.keymem.memRead (off - keyWindowBase) n with
      | some v => .ok v
      | none => .error .uninitKey
    else .error .badAccess
  else if off < registerEnd then
    if n == 4 && off % 4 == 0 then
      match HostReg.atOffset off with
      | some r => if s.regWritten r then .ok (s.regVal r) else .error .uninitReg
      | none => .error .unmapped
    else .error .badAccess
  else .error .unmapped

/-- A host read made by the Host agent: the value joins what the host has read. -/
def State.hostReads (s : State) (v : Word) : State := { s with reads := s.reads ++ [v] }

/-- One move of the Host agent (R58, R63): the next access of its program, whole. `WAIT` reads STATUS and stays where it is
while bit 0 is set (R89). A host with no access left makes none. -/
def hostTurn (s : State) : Result :=
  match s.program with
  | [] => .next s
  | .write off n v :: rest => hostWrite off n v { s with program := rest }
  | .read off n :: rest =>
    match hostRead off n s with
    | .ok v => .next { s.hostReads v with program := rest }
    | .error r => .fault r
  | .wait :: rest =>
    match hostRead (HostReg.offset .status) 4 s with
    | .ok v => .next { s.hostReads v with program := if v.getLsbD 0 then s.program else rest }
    | .error r => .fault r

/-- `Perform` (R201), the Engine's move: enabled exactly when BUSY = 1, it runs the command latched in LOP. An Engine that
is not enabled makes no move. -/
def engineTurn (s : State) : Result :=
  if s.busy then
    match decodeOpcode s.lop with
    | .ok i => exec i s
    | .error _ => .refused .lopNotAnOpcode
  else .next s

/-- The move of one agent, or of the platform (R18, R250). -/
def takeTurn (t : Turn) (s : State) : Result :=
  match t with
  | .host => hostTurn s
  | .engine => engineTurn s
  | .reset => .next s.platformReset

/-- Whose move it is, and the state with that turn taken from the schedule (R63). Past the schedule's end the Engine moves
whenever it is enabled, so that every enabled Perform is eventually taken (R204), and else the Host. -/
def nextTurn (s : State) : Turn × State :=
  match s.schedule with
  | t :: rest => (t, { s with schedule := rest })
  | [] => (if s.busy then .engine else .host, s)

/-- One step of the machine: none once FAULT is set (R40), else one move. -/
def stepOnce (s : State) : Result :=
  match s.fault with
  | some r => .fault r
  | none => takeTurn (nextTurn s).1 (nextTurn s).2

/-- The state a run is left in by the outcome of a step taken from s: a model fault is recorded in FAULT and changes
nothing else (R13, R40, R201). -/
def State.record (s : State) (o : Result) : State :=
  match o with
  | .next t => t
  | .fault r => s.markFault r
  | .refused _ => s

/-- The command i latched as an accepted issue latches it (R200), the Engine's move next: the state whose next step
performs i. -/
def State.withLatched (s : State) (i : Instr) : State :=
  { s.accept i with fault := none, schedule := .engine :: s.schedule }

/-- The word w as the host's next write to CMD, with the Engine idle and the host's move next: the state whose next step
issues w. -/
def State.withCommandWrite (s : State) (w : Word) : State :=
  { s with
    status := s.status &&& ~~~statusBusy
    fault := none
    program := .write (HostReg.offset .cmd) 4 w :: s.program
    schedule := .host :: s.schedule }

end Sys2Proof.Machine

namespace Sys2Proof

/-- The window offset a platform address reaches (R50, R232): none outside the window at NHE_BASE, where the access is not
NHE's. -/
def Config.windowOffset (cfg : Config) (addr : Nat) : Option Nat :=
  if cfg.nheBase ≤ addr ∧ addr < cfg.nheBase + windowBytes then some (addr - cfg.nheBase) else none

/-- The accesses a statement of a host program makes (R88, R89). -/
def HostStmt.expand : HostStmt → List HostOp
  | .wr r imm => [.write r.offset 4 imm]
  | .rd r => [.read r.offset 4]
  | .wk8 koff imm => [.write (Machine.keyWindowBase + koff) 1 (imm.setWidth 32)]
  | .wk16 koff imm => [.write (Machine.keyWindowBase + koff) 2 (imm.setWidth 32)]
  | .wk32 koff imm => [.write (Machine.keyWindowBase + koff) 4 imm]
  | .rk8 koff => [.read (Machine.keyWindowBase + koff) 1]
  | .rk16 koff => [.read (Machine.keyWindowBase + koff) 2]
  | .rk32 koff => [.read (Machine.keyWindowBase + koff) 4]
  | .cmd i => [.write (HostReg.offset .cmd) 4 (encode i)]
  | .cmdWord w => [.write (HostReg.offset .cmd) 4 w]
  | .wait => [.wait]
  | .run i => [.write (HostReg.offset .cmd) 4 (encode i), .wait]
  | .ldkey koff bytes =>
    bytes.zipIdx.map fun p => .write (Machine.keyWindowBase + koff + p.2) 1 (p.1.setWidth 32)
  | .ldwords koff words => words.zipIdx.map fun p => .write (Machine.keyWindowBase + koff + 4 * p.2) 4 p.1

/-- The accesses of a host program, in its order (R63). -/
def hostAccesses (p : List HostStmt) : List HostOp := p.flatMap HostStmt.expand

end Sys2Proof
end

