-- ==== Sys2Proof/Machine/Step.lean ====
section
/-! DEFINITION. One step of the machine (R63: one move in one total order), and the state whose next step runs a given
command word. -/

namespace Sys2Proof.Machine

/-- One step: one move of the Host, of the Engine or of the platform. -/
def step (s : State) : Host.Outcome State Fault Refusal := stepOnce s

/-- The state s with the word w, numbered as spec/opcode_table.json numbers it, standing where the next step takes it from.
NHE fetches nothing (R67): the Engine performs the command latched in LOP, so a legal word is latched there as an accepted
issue latches it (assumption 4). A word that is no command is never latched; it stands as the host's next write to CMD,
where the next step issues it. -/
def State.withFetchWord (s : State) (nbits w : Nat) : State :=
  match decodeTableWord nbits w with
  | some i => s.withLatched i
  | none => s.withCommandWrite (BitVec.ofNat 32 (w % 2 ^ nbits))

end Sys2Proof.Machine
end

