-- ==== Sys2Proof/Safety.lean ====
section
/-! DEFINITION. What claims call a good state: the invariant every step keeps. -/

namespace Sys2Proof.Machine

/-- Every listed key byte lies in [0, KEY_BYTES) (R35). -/
def keymemInside (s : State) : Bool := s.keymem.all fun c => decide (c.1 < s.cfg.keyBytes)

/-- What an accepted issue leaves for its perform step (R64, R200, R201): LOP is an opcode, and its command's operand
registers hold values that pass its check. -/
def lopReady (s : State) : Bool :=
  match decodeOpcode s.lop with
  | .ok i => operandsWritten i s && decide (issueCheck i s = none)
  | .error _ => false

/-- The invariant. The parameters meet their constraints (R8); the key buffer keeps its canonical form, inside its size
(R35); STATUS holds a legal value (R23); no accumulators exist between steps (R36); no fault is marked (R40); and a busy
Engine holds a command that its issue has checked (R64, R201). -/
def State.inv (s : State) : Bool :=
  s.cfg.wf && s.keymem.wf && keymemInside s && statusLegal s.status && s.acc.isNone && s.fault.isNone &&
    (!s.busy || lopReady s)

/-- The invariant, as a proposition. -/
abbrev State.Inv (s : State) : Prop := s.inv = true

/-- A register with the contents of an unwritten one hidden: the spec gives them no value (R39, R250). -/
def FlaggedReg.visible (r : FlaggedReg) : FlaggedReg := if r.written then r else .unwritten

/-- What of a state the spec gives a value: unwritten registers' contents are hidden, and LOP while BUSY = 0 (R37, U19 of
93_implementation_defined.md). -/
def State.visible (s : State) : State :=
  { s with
    len := s.len.visible, kbase := s.kbase.visible, rmin := s.rmin.visible, rmax := s.rmax.visible,
    arg0 := s.arg0.visible, arg1 := s.arg1.visible, arg2 := s.arg2.visible,
    res0 := s.res0.visible, res1 := s.res1.visible, res2 := s.res2.visible,
    lop := if s.busy then s.lop else 0 }

/-- What of an outcome the spec gives a value. -/
def visibleOutcome : Result → Result
  | .next s => .next s.visible
  | .fault r => .fault r
  | .refused r => .refused r

/-- k steps, stopping at the first fault or refusal. -/
def runSteps : Nat → State → Result
  | 0, s => .next s
  | k + 1, s =>
    match step s with
    | .next t => runSteps k t
    | .fault r => .fault r
    | .refused r => .refused r

end Sys2Proof.Machine
end

