-- ==== Sys2Proof/Laws/HashLoops.lean ====
section
/-! SUPPORT. What the loops over full chunks and full groups leave of the key (R120, R140). -/

namespace Sys2Proof.Machine

/-- The chunk loop leaves the key without its m full chunks. -/
theorem chunkLoop_tail (m : Nat) : ∀ (k : List Byte) (h : HashState), (chunkLoop m k h).2 = k.drop (12 * m) := by
  induction m with
  | zero => intro k h; rfl
  | succ m ih => intro k h; rw [chunkLoop, ih, List.drop_drop]; congr 1; omega

/-- The group loop leaves the key without its m full groups. -/
theorem groupLoop_tail (m : Nat) : ∀ (k : List Word) (h : HashState), (groupLoop m k h).2 = k.drop (3 * m) := by
  induction m with
  | zero => intro k h; rfl
  | succ m ih => intro k h; rw [groupLoop, ih, List.drop_drop]; congr 1; omega

end Sys2Proof.Machine
end

