-- ==== Sys2Proof/Laws/State.lean ====
section
/-! SUPPORT. The small lemmas of the state: one per field per update, so that no later proof unfolds a record update.
Their proofs are written (rfl), which keeps simp from using them by definitional unfolding: with a whole hash in a field's
place the kernel would compare states by evaluating the hash on symbolic words ("deep recursion"). For the same reason close
such a goal with these lemmas and rw, never with rfl. -/

namespace Sys2Proof.Machine

/-! ## Writing a register (R13, R39) -/

@[simp] theorem writeReg_cfg (s : State) (r : HostReg) (v : Word) : (s.writeReg r v).cfg = s.cfg := by cases r <;> rfl
@[simp] theorem writeReg_keymem (s : State) (r : HostReg) (v : Word) : (s.writeReg r v).keymem = s.keymem := by cases r <;> rfl
@[simp] theorem writeReg_lop (s : State) (r : HostReg) (v : Word) : (s.writeReg r v).lop = s.lop := by cases r <;> rfl
@[simp] theorem writeReg_acc (s : State) (r : HostReg) (v : Word) : (s.writeReg r v).acc = s.acc := by cases r <;> rfl
@[simp] theorem writeReg_fault (s : State) (r : HostReg) (v : Word) : (s.writeReg r v).fault = s.fault := by cases r <;> rfl
@[simp] theorem writeReg_program (s : State) (r : HostReg) (v : Word) : (s.writeReg r v).program = s.program := by cases r <;> rfl
@[simp] theorem writeReg_reads (s : State) (r : HostReg) (v : Word) : (s.writeReg r v).reads = s.reads := by cases r <;> rfl
@[simp] theorem writeReg_schedule (s : State) (r : HostReg) (v : Word) : (s.writeReg r v).schedule = s.schedule := by cases r <;> rfl

@[simp] theorem writeReg_status_same (s : State) (v : Word) : (s.writeReg .status v).status = v := (rfl)
@[simp] theorem writeReg_seed_same (s : State) (v : Word) : (s.writeReg .seed v).seed = v := (rfl)
@[simp] theorem writeReg_len_same (s : State) (v : Word) : (s.writeReg .len v).len = ⟨v, true⟩ := (rfl)
@[simp] theorem writeReg_kbase_same (s : State) (v : Word) : (s.writeReg .kbase v).kbase = ⟨v, true⟩ := (rfl)
@[simp] theorem writeReg_rmin_same (s : State) (v : Word) : (s.writeReg .rmin v).rmin = ⟨v, true⟩ := (rfl)
@[simp] theorem writeReg_rmax_same (s : State) (v : Word) : (s.writeReg .rmax v).rmax = ⟨v, true⟩ := (rfl)
@[simp] theorem writeReg_arg0_same (s : State) (v : Word) : (s.writeReg .arg0 v).arg0 = ⟨v, true⟩ := (rfl)
@[simp] theorem writeReg_arg1_same (s : State) (v : Word) : (s.writeReg .arg1 v).arg1 = ⟨v, true⟩ := (rfl)
@[simp] theorem writeReg_arg2_same (s : State) (v : Word) : (s.writeReg .arg2 v).arg2 = ⟨v, true⟩ := (rfl)
@[simp] theorem writeReg_res0_same (s : State) (v : Word) : (s.writeReg .res0 v).res0 = ⟨v, true⟩ := (rfl)
@[simp] theorem writeReg_res1_same (s : State) (v : Word) : (s.writeReg .res1 v).res1 = ⟨v, true⟩ := (rfl)
@[simp] theorem writeReg_res2_same (s : State) (v : Word) : (s.writeReg .res2 v).res2 = ⟨v, true⟩ := (rfl)

/-- A register other than CMD holds the value written to it. -/
theorem regVal_writeReg_same (s : State) {r : HostReg} (v : Word) (h : r ≠ .cmd) : (s.writeReg r v).regVal r = v := by
  cases r <;> first | rfl | exact absurd rfl h

/-- Writing one register leaves every other one's value. -/
theorem regVal_writeReg_other (s : State) {r q : HostReg} (v : Word) (h : q ≠ r) :
    (s.writeReg r v).regVal q = s.regVal q := by
  cases r <;> cases q <;> first | rfl | exact absurd rfl h

/-- A written register's flag is set. -/
theorem regWritten_writeReg_same (s : State) (r : HostReg) (v : Word) : (s.writeReg r v).regWritten r = true := by
  cases r <;> rfl

/-- Writing one register leaves every other one's flag. -/
theorem regWritten_writeReg_other (s : State) {r q : HostReg} (v : Word) (h : q ≠ r) :
    (s.writeReg r v).regWritten q = s.regWritten q := by
  cases r <;> cases q <;> first | rfl | exact absurd rfl h

/-- A register other than STATUS leaves STATUS. -/
theorem writeReg_status_other (s : State) {r : HostReg} (v : Word) (h : r ≠ .status) : (s.writeReg r v).status = s.status := by
  cases r <;> first | rfl | exact absurd rfl h


/-! ## A rejection (R223) -/

@[simp] theorem reject_cfg (s : State) (e : ErrorCode) : (s.reject e).cfg = s.cfg := (rfl)
@[simp] theorem reject_status (s : State) (e : ErrorCode) : (s.reject e).status = statusRejected e := (rfl)
@[simp] theorem reject_seed (s : State) (e : ErrorCode) : (s.reject e).seed = s.seed := (rfl)
@[simp] theorem reject_len (s : State) (e : ErrorCode) : (s.reject e).len = s.len := (rfl)
@[simp] theorem reject_kbase (s : State) (e : ErrorCode) : (s.reject e).kbase = s.kbase := (rfl)
@[simp] theorem reject_rmin (s : State) (e : ErrorCode) : (s.reject e).rmin = s.rmin := (rfl)
@[simp] theorem reject_rmax (s : State) (e : ErrorCode) : (s.reject e).rmax = s.rmax := (rfl)
@[simp] theorem reject_arg0 (s : State) (e : ErrorCode) : (s.reject e).arg0 = s.arg0 := (rfl)
@[simp] theorem reject_arg1 (s : State) (e : ErrorCode) : (s.reject e).arg1 = s.arg1 := (rfl)
@[simp] theorem reject_arg2 (s : State) (e : ErrorCode) : (s.reject e).arg2 = s.arg2 := (rfl)
@[simp] theorem reject_res0 (s : State) (e : ErrorCode) : (s.reject e).res0 = s.res0 := (rfl)
@[simp] theorem reject_res1 (s : State) (e : ErrorCode) : (s.reject e).res1 = s.res1 := (rfl)
@[simp] theorem reject_res2 (s : State) (e : ErrorCode) : (s.reject e).res2 = s.res2 := (rfl)
@[simp] theorem reject_keymem (s : State) (e : ErrorCode) : (s.reject e).keymem = s.keymem := (rfl)
@[simp] theorem reject_lop (s : State) (e : ErrorCode) : (s.reject e).lop = s.lop := (rfl)
@[simp] theorem reject_acc (s : State) (e : ErrorCode) : (s.reject e).acc = s.acc := (rfl)
@[simp] theorem reject_fault (s : State) (e : ErrorCode) : (s.reject e).fault = s.fault := (rfl)
@[simp] theorem reject_program (s : State) (e : ErrorCode) : (s.reject e).program = s.program := (rfl)
@[simp] theorem reject_reads (s : State) (e : ErrorCode) : (s.reject e).reads = s.reads := (rfl)
@[simp] theorem reject_schedule (s : State) (e : ErrorCode) : (s.reject e).schedule = s.schedule := (rfl)

/-! ## An acceptance (R200) -/

@[simp] theorem accept_cfg (s : State) (i : Instr) : (s.accept i).cfg = s.cfg := (rfl)
@[simp] theorem accept_status (s : State) (i : Instr) : (s.accept i).status = statusBusy := (rfl)
@[simp] theorem accept_seed (s : State) (i : Instr) : (s.accept i).seed = s.seed := (rfl)
@[simp] theorem accept_len (s : State) (i : Instr) : (s.accept i).len = s.len := (rfl)
@[simp] theorem accept_kbase (s : State) (i : Instr) : (s.accept i).kbase = s.kbase := (rfl)
@[simp] theorem accept_rmin (s : State) (i : Instr) : (s.accept i).rmin = s.rmin := (rfl)
@[simp] theorem accept_rmax (s : State) (i : Instr) : (s.accept i).rmax = s.rmax := (rfl)
@[simp] theorem accept_arg0 (s : State) (i : Instr) : (s.accept i).arg0 = s.arg0 := (rfl)
@[simp] theorem accept_arg1 (s : State) (i : Instr) : (s.accept i).arg1 = s.arg1 := (rfl)
@[simp] theorem accept_arg2 (s : State) (i : Instr) : (s.accept i).arg2 = s.arg2 := (rfl)
@[simp] theorem accept_res0 (s : State) (i : Instr) : (s.accept i).res0 = s.res0 := (rfl)
@[simp] theorem accept_res1 (s : State) (i : Instr) : (s.accept i).res1 = s.res1 := (rfl)
@[simp] theorem accept_res2 (s : State) (i : Instr) : (s.accept i).res2 = s.res2 := (rfl)
@[simp] theorem accept_keymem (s : State) (i : Instr) : (s.accept i).keymem = s.keymem := (rfl)
@[simp] theorem accept_lop (s : State) (i : Instr) : (s.accept i).lop = opcodeOf i := (rfl)
@[simp] theorem accept_acc (s : State) (i : Instr) : (s.accept i).acc = s.acc := (rfl)
@[simp] theorem accept_fault (s : State) (i : Instr) : (s.accept i).fault = s.fault := (rfl)
@[simp] theorem accept_program (s : State) (i : Instr) : (s.accept i).program = s.program := (rfl)
@[simp] theorem accept_reads (s : State) (i : Instr) : (s.accept i).reads = s.reads := (rfl)
@[simp] theorem accept_schedule (s : State) (i : Instr) : (s.accept i).schedule = s.schedule := (rfl)

/-! ## Loading the accumulators (R36) -/

@[simp] theorem loadAcc_cfg (s : State) (h : HashState) : (s.loadAcc h).cfg = s.cfg := (rfl)
@[simp] theorem loadAcc_status (s : State) (h : HashState) : (s.loadAcc h).status = s.status := (rfl)
@[simp] theorem loadAcc_seed (s : State) (h : HashState) : (s.loadAcc h).seed = s.seed := (rfl)
@[simp] theorem loadAcc_len (s : State) (h : HashState) : (s.loadAcc h).len = s.len := (rfl)
@[simp] theorem loadAcc_kbase (s : State) (h : HashState) : (s.loadAcc h).kbase = s.kbase := (rfl)
@[simp] theorem loadAcc_rmin (s : State) (h : HashState) : (s.loadAcc h).rmin = s.rmin := (rfl)
@[simp] theorem loadAcc_rmax (s : State) (h : HashState) : (s.loadAcc h).rmax = s.rmax := (rfl)
@[simp] theorem loadAcc_arg0 (s : State) (h : HashState) : (s.loadAcc h).arg0 = s.arg0 := (rfl)
@[simp] theorem loadAcc_arg1 (s : State) (h : HashState) : (s.loadAcc h).arg1 = s.arg1 := (rfl)
@[simp] theorem loadAcc_arg2 (s : State) (h : HashState) : (s.loadAcc h).arg2 = s.arg2 := (rfl)
@[simp] theorem loadAcc_res0 (s : State) (h : HashState) : (s.loadAcc h).res0 = s.res0 := (rfl)
@[simp] theorem loadAcc_res1 (s : State) (h : HashState) : (s.loadAcc h).res1 = s.res1 := (rfl)
@[simp] theorem loadAcc_res2 (s : State) (h : HashState) : (s.loadAcc h).res2 = s.res2 := (rfl)
@[simp] theorem loadAcc_keymem (s : State) (h : HashState) : (s.loadAcc h).keymem = s.keymem := (rfl)
@[simp] theorem loadAcc_lop (s : State) (h : HashState) : (s.loadAcc h).lop = s.lop := (rfl)
@[simp] theorem loadAcc_acc (s : State) (h : HashState) : (s.loadAcc h).acc = some h := (rfl)
@[simp] theorem loadAcc_fault (s : State) (h : HashState) : (s.loadAcc h).fault = s.fault := (rfl)
@[simp] theorem loadAcc_program (s : State) (h : HashState) : (s.loadAcc h).program = s.program := (rfl)
@[simp] theorem loadAcc_reads (s : State) (h : HashState) : (s.loadAcc h).reads = s.reads := (rfl)
@[simp] theorem loadAcc_schedule (s : State) (h : HashState) : (s.loadAcc h).schedule = s.schedule := (rfl)

/-! ## The end of a perform step (R201) -/

@[simp] theorem finishPerform_cfg (s : State) : (s.finishPerform).cfg = s.cfg := (rfl)
@[simp] theorem finishPerform_status (s : State) : (s.finishPerform).status = statusDone := (rfl)
@[simp] theorem finishPerform_seed (s : State) : (s.finishPerform).seed = s.seed := (rfl)
@[simp] theorem finishPerform_len (s : State) : (s.finishPerform).len = s.len := (rfl)
@[simp] theorem finishPerform_kbase (s : State) : (s.finishPerform).kbase = s.kbase := (rfl)
@[simp] theorem finishPerform_rmin (s : State) : (s.finishPerform).rmin = s.rmin := (rfl)
@[simp] theorem finishPerform_rmax (s : State) : (s.finishPerform).rmax = s.rmax := (rfl)
@[simp] theorem finishPerform_arg0 (s : State) : (s.finishPerform).arg0 = s.arg0 := (rfl)
@[simp] theorem finishPerform_arg1 (s : State) : (s.finishPerform).arg1 = s.arg1 := (rfl)
@[simp] theorem finishPerform_arg2 (s : State) : (s.finishPerform).arg2 = s.arg2 := (rfl)
@[simp] theorem finishPerform_res0 (s : State) : (s.finishPerform).res0 = s.res0 := (rfl)
@[simp] theorem finishPerform_res1 (s : State) : (s.finishPerform).res1 = s.res1 := (rfl)
@[simp] theorem finishPerform_res2 (s : State) : (s.finishPerform).res2 = s.res2 := (rfl)
@[simp] theorem finishPerform_keymem (s : State) : (s.finishPerform).keymem = s.keymem := (rfl)
@[simp] theorem finishPerform_lop (s : State) : (s.finishPerform).lop = s.lop := (rfl)
@[simp] theorem finishPerform_acc (s : State) : (s.finishPerform).acc = none := (rfl)
@[simp] theorem finishPerform_fault (s : State) : (s.finishPerform).fault = s.fault := (rfl)
@[simp] theorem finishPerform_program (s : State) : (s.finishPerform).program = s.program := (rfl)
@[simp] theorem finishPerform_reads (s : State) : (s.finishPerform).reads = s.reads := (rfl)
@[simp] theorem finishPerform_schedule (s : State) : (s.finishPerform).schedule = s.schedule := (rfl)

/-! ## The perform step of a hash (R85) -/

@[simp] theorem performHash_cfg (h : HashState) (s : State) : (performHash h s).cfg = s.cfg := (rfl)
@[simp] theorem performHash_status (h : HashState) (s : State) : (performHash h s).status = statusDone := (rfl)
@[simp] theorem performHash_seed (h : HashState) (s : State) : (performHash h s).seed = s.seed := (rfl)
@[simp] theorem performHash_len (h : HashState) (s : State) : (performHash h s).len = s.len := (rfl)
@[simp] theorem performHash_kbase (h : HashState) (s : State) : (performHash h s).kbase = s.kbase := (rfl)
@[simp] theorem performHash_rmin (h : HashState) (s : State) : (performHash h s).rmin = s.rmin := (rfl)
@[simp] theorem performHash_rmax (h : HashState) (s : State) : (performHash h s).rmax = s.rmax := (rfl)
@[simp] theorem performHash_arg0 (h : HashState) (s : State) : (performHash h s).arg0 = s.arg0 := (rfl)
@[simp] theorem performHash_arg1 (h : HashState) (s : State) : (performHash h s).arg1 = s.arg1 := (rfl)
@[simp] theorem performHash_arg2 (h : HashState) (s : State) : (performHash h s).arg2 = s.arg2 := (rfl)
@[simp] theorem performHash_res0 (h : HashState) (s : State) : (performHash h s).res0 = ⟨h.c, true⟩ := (rfl)
@[simp] theorem performHash_res1 (h : HashState) (s : State) : (performHash h s).res1 = s.res1 := (rfl)
@[simp] theorem performHash_res2 (h : HashState) (s : State) : (performHash h s).res2 = s.res2 := (rfl)
@[simp] theorem performHash_keymem (h : HashState) (s : State) : (performHash h s).keymem = s.keymem := (rfl)
@[simp] theorem performHash_lop (h : HashState) (s : State) : (performHash h s).lop = s.lop := (rfl)
@[simp] theorem performHash_acc (h : HashState) (s : State) : (performHash h s).acc = none := (rfl)
@[simp] theorem performHash_fault (h : HashState) (s : State) : (performHash h s).fault = s.fault := (rfl)
@[simp] theorem performHash_program (h : HashState) (s : State) : (performHash h s).program = s.program := (rfl)
@[simp] theorem performHash_reads (h : HashState) (s : State) : (performHash h s).reads = s.reads := (rfl)
@[simp] theorem performHash_schedule (h : HashState) (s : State) : (performHash h s).schedule = s.schedule := (rfl)

/-! ## What a host read leaves (R55) -/

@[simp] theorem hostReads_cfg (s : State) (v : Word) : (s.hostReads v).cfg = s.cfg := (rfl)
@[simp] theorem hostReads_status (s : State) (v : Word) : (s.hostReads v).status = s.status := (rfl)
@[simp] theorem hostReads_seed (s : State) (v : Word) : (s.hostReads v).seed = s.seed := (rfl)
@[simp] theorem hostReads_len (s : State) (v : Word) : (s.hostReads v).len = s.len := (rfl)
@[simp] theorem hostReads_kbase (s : State) (v : Word) : (s.hostReads v).kbase = s.kbase := (rfl)
@[simp] theorem hostReads_rmin (s : State) (v : Word) : (s.hostReads v).rmin = s.rmin := (rfl)
@[simp] theorem hostReads_rmax (s : State) (v : Word) : (s.hostReads v).rmax = s.rmax := (rfl)
@[simp] theorem hostReads_arg0 (s : State) (v : Word) : (s.hostReads v).arg0 = s.arg0 := (rfl)
@[simp] theorem hostReads_arg1 (s : State) (v : Word) : (s.hostReads v).arg1 = s.arg1 := (rfl)
@[simp] theorem hostReads_arg2 (s : State) (v : Word) : (s.hostReads v).arg2 = s.arg2 := (rfl)
@[simp] theorem hostReads_res0 (s : State) (v : Word) : (s.hostReads v).res0 = s.res0 := (rfl)
@[simp] theorem hostReads_res1 (s : State) (v : Word) : (s.hostReads v).res1 = s.res1 := (rfl)
@[simp] theorem hostReads_res2 (s : State) (v : Word) : (s.hostReads v).res2 = s.res2 := (rfl)
@[simp] theorem hostReads_keymem (s : State) (v : Word) : (s.hostReads v).keymem = s.keymem := (rfl)
@[simp] theorem hostReads_lop (s : State) (v : Word) : (s.hostReads v).lop = s.lop := (rfl)
@[simp] theorem hostReads_acc (s : State) (v : Word) : (s.hostReads v).acc = s.acc := (rfl)
@[simp] theorem hostReads_fault (s : State) (v : Word) : (s.hostReads v).fault = s.fault := (rfl)
@[simp] theorem hostReads_program (s : State) (v : Word) : (s.hostReads v).program = s.program := (rfl)
@[simp] theorem hostReads_reads (s : State) (v : Word) : (s.hostReads v).reads = s.reads ++ [v] := (rfl)
@[simp] theorem hostReads_schedule (s : State) (v : Word) : (s.hostReads v).schedule = s.schedule := (rfl)

/-! ## Recording a model fault (R40) -/

@[simp] theorem markFault_cfg (s : State) (r : Fault) : (s.markFault r).cfg = s.cfg := (rfl)
@[simp] theorem markFault_status (s : State) (r : Fault) : (s.markFault r).status = s.status := (rfl)
@[simp] theorem markFault_seed (s : State) (r : Fault) : (s.markFault r).seed = s.seed := (rfl)
@[simp] theorem markFault_len (s : State) (r : Fault) : (s.markFault r).len = s.len := (rfl)
@[simp] theorem markFault_kbase (s : State) (r : Fault) : (s.markFault r).kbase = s.kbase := (rfl)
@[simp] theorem markFault_rmin (s : State) (r : Fault) : (s.markFault r).rmin = s.rmin := (rfl)
@[simp] theorem markFault_rmax (s : State) (r : Fault) : (s.markFault r).rmax = s.rmax := (rfl)
@[simp] theorem markFault_arg0 (s : State) (r : Fault) : (s.markFault r).arg0 = s.arg0 := (rfl)
@[simp] theorem markFault_arg1 (s : State) (r : Fault) : (s.markFault r).arg1 = s.arg1 := (rfl)
@[simp] theorem markFault_arg2 (s : State) (r : Fault) : (s.markFault r).arg2 = s.arg2 := (rfl)
@[simp] theorem markFault_res0 (s : State) (r : Fault) : (s.markFault r).res0 = s.res0 := (rfl)
@[simp] theorem markFault_res1 (s : State) (r : Fault) : (s.markFault r).res1 = s.res1 := (rfl)
@[simp] theorem markFault_res2 (s : State) (r : Fault) : (s.markFault r).res2 = s.res2 := (rfl)
@[simp] theorem markFault_keymem (s : State) (r : Fault) : (s.markFault r).keymem = s.keymem := (rfl)
@[simp] theorem markFault_lop (s : State) (r : Fault) : (s.markFault r).lop = s.lop := (rfl)
@[simp] theorem markFault_acc (s : State) (r : Fault) : (s.markFault r).acc = s.acc := (rfl)
@[simp] theorem markFault_fault (s : State) (r : Fault) : (s.markFault r).fault = some r := (rfl)
@[simp] theorem markFault_program (s : State) (r : Fault) : (s.markFault r).program = s.program := (rfl)
@[simp] theorem markFault_reads (s : State) (r : Fault) : (s.markFault r).reads = s.reads := (rfl)
@[simp] theorem markFault_schedule (s : State) (r : Fault) : (s.markFault r).schedule = s.schedule := (rfl)

/-! ## Reset (R250) -/

@[simp] theorem platformReset_cfg (s : State) : (s.platformReset).cfg = s.cfg := (rfl)
@[simp] theorem platformReset_status (s : State) : (s.platformReset).status = 0 := (rfl)
@[simp] theorem platformReset_seed (s : State) : (s.platformReset).seed = 0 := (rfl)
@[simp] theorem platformReset_len (s : State) : (s.platformReset).len = .unwritten := (rfl)
@[simp] theorem platformReset_kbase (s : State) : (s.platformReset).kbase = .unwritten := (rfl)
@[simp] theorem platformReset_rmin (s : State) : (s.platformReset).rmin = .unwritten := (rfl)
@[simp] theorem platformReset_rmax (s : State) : (s.platformReset).rmax = .unwritten := (rfl)
@[simp] theorem platformReset_arg0 (s : State) : (s.platformReset).arg0 = .unwritten := (rfl)
@[simp] theorem platformReset_arg1 (s : State) : (s.platformReset).arg1 = .unwritten := (rfl)
@[simp] theorem platformReset_arg2 (s : State) : (s.platformReset).arg2 = .unwritten := (rfl)
@[simp] theorem platformReset_res0 (s : State) : (s.platformReset).res0 = .unwritten := (rfl)
@[simp] theorem platformReset_res1 (s : State) : (s.platformReset).res1 = .unwritten := (rfl)
@[simp] theorem platformReset_res2 (s : State) : (s.platformReset).res2 = .unwritten := (rfl)
@[simp] theorem platformReset_keymem (s : State) : (s.platformReset).keymem = [] := (rfl)
@[simp] theorem platformReset_lop (s : State) : (s.platformReset).lop = 0 := (rfl)
@[simp] theorem platformReset_acc (s : State) : (s.platformReset).acc = none := (rfl)
@[simp] theorem platformReset_fault (s : State) : (s.platformReset).fault = none := (rfl)
@[simp] theorem platformReset_program (s : State) : (s.platformReset).program = s.program := (rfl)
@[simp] theorem platformReset_reads (s : State) : (s.platformReset).reads = s.reads := (rfl)
@[simp] theorem platformReset_schedule (s : State) : (s.platformReset).schedule = s.schedule := (rfl)

/-! ## Registers read through an update -/

@[simp] theorem loadAcc_regVal (s : State) (h : HashState) (r : HostReg) : (s.loadAcc h).regVal r = s.regVal r := by
  cases r <;> rfl

@[simp] theorem loadAcc_regWritten (s : State) (h : HashState) (r : HostReg) :
    (s.loadAcc h).regWritten r = s.regWritten r := by
  cases r <;> rfl

theorem finishPerform_regVal (s : State) {r : HostReg} (h : r ≠ .status) : s.finishPerform.regVal r = s.regVal r := by
  cases r <;> first | rfl | exact absurd rfl h

@[simp] theorem finishPerform_regWritten (s : State) (r : HostReg) : s.finishPerform.regWritten r = s.regWritten r := by
  cases r <;> rfl

theorem accept_regVal (s : State) (i : Instr) {r : HostReg} (h : r ≠ .status) : (s.accept i).regVal r = s.regVal r := by
  cases r <;> first | rfl | exact absurd rfl h

@[simp] theorem accept_regWritten (s : State) (i : Instr) (r : HostReg) : (s.accept i).regWritten r = s.regWritten r := by
  cases r <;> rfl

theorem reject_regVal (s : State) (e : ErrorCode) {r : HostReg} (h : r ≠ .status) : (s.reject e).regVal r = s.regVal r := by
  cases r <;> first | rfl | exact absurd rfl h

@[simp] theorem reject_regWritten (s : State) (e : ErrorCode) (r : HostReg) :
    (s.reject e).regWritten r = s.regWritten r := by
  cases r <;> rfl

/-- Loading the accumulators and storing c writes c. -/
@[simp] theorem storeC_loadAcc (s : State) (h : HashState) (r : HostReg) :
    (s.loadAcc h).storeC r = (s.loadAcc h).writeReg r h.c := (rfl)

/-- The perform step of a hash, whole (R85, R201). -/
theorem performHash_eq (h : HashState) (s : State) :
    performHash h s = { s with res0 := ⟨h.c, true⟩, status := statusDone, acc := none } := (rfl)

/-- The perform step of MIX, whole (R104, R201). -/
theorem performMix_eq (h : HashState) (s : State) :
    performMix h s =
      { s with res0 := ⟨h.a, true⟩, res1 := ⟨h.b, true⟩, res2 := ⟨h.c, true⟩, status := statusDone, acc := none } := (rfl)

/-- The perform step of MAPR, whole (R184, R201). -/
theorem performMapr_eq (m : Word) (s : State) :
    performMapr m s = { s with res0 := ⟨m, true⟩, status := statusDone, acc := none } := (rfl)

/-- The perform step of PMAP, whole (R185, R201). -/
theorem performPmap_eq (h : HashState) (m : Word) (s : State) :
    performPmap h m s =
      { s with res0 := ⟨m, true⟩, res1 := ⟨h.c, true⟩, status := statusDone, acc := none } := (rfl)

/-- The end of a perform step, whole (R201, R202). -/
theorem finishPerform_eq (s : State) : s.finishPerform = { s with status := statusDone, acc := none } := (rfl)

/-! ## BUSY (R24) -/

@[simp] theorem busy_reject (s : State) (e : ErrorCode) : (s.reject e).busy = false := by
  change (statusRejected e).getLsbD 0 = false
  cases e <;> decide

@[simp] theorem busy_accept (s : State) (i : Instr) : (s.accept i).busy = true := by
  change statusBusy.getLsbD 0 = true
  decide

@[simp] theorem busy_finishPerform (s : State) : s.finishPerform.busy = false := by
  change statusDone.getLsbD 0 = false
  decide

@[simp] theorem busy_loadAcc (s : State) (h : HashState) : (s.loadAcc h).busy = s.busy := (rfl)

@[simp] theorem busy_platformReset (s : State) : s.platformReset.busy = false := by
  change (0 : Word).getLsbD 0 = false
  decide

theorem busy_writeReg (s : State) {r : HostReg} (v : Word) (h : r ≠ .status) : (s.writeReg r v).busy = s.busy := by
  simp only [State.busy, writeReg_status_other s v h]

/-- The values STATUS takes are legal (R23). -/
theorem statusLegal_values (e : ErrorCode) :
    statusLegal 0 = true ∧ statusLegal statusBusy = true ∧ statusLegal statusDone = true ∧
      statusLegal (statusRejected e) = true := by
  cases e <;> decide

end Sys2Proof.Machine
end

