-- ==== Sys2Proof/Laws/Memory.lean ====
section
/-! SUPPORT. The laws of the key buffer: read after write, and that every write keeps the canonical form and the bounds. -/

namespace Sys2Proof.Machine

/-- A byte reads as it was written. -/
@[simp] theorem Memory.read_write_same (m : Memory) (a : Nat) (v : Byte) : (Memory.write a v m).read a = some v := by
  induction m with
  | nil => simp [Memory.write, Memory.read]
  | cons c m ih =>
    obtain ⟨k, b⟩ := c
    simp only [Memory.write]
    split
    · simp [Memory.read]
    · split
      · simp [Memory.read]
      · have : k ≠ a := fun h => by omega
        simp [Memory.read, this, ih]

/-- A write leaves every other byte. -/
theorem Memory.read_write_other (m : Memory) {a x : Nat} (v : Byte) (h : x ≠ a) :
    (Memory.write a v m).read x = m.read x := by
  induction m with
  | nil => simp [Memory.write, Memory.read, Ne.symm h]
  | cons c m ih =>
    obtain ⟨k, b⟩ := c
    simp only [Memory.write]
    split
    · simp [Memory.read, Ne.symm h]
    · split
      · rename_i hk
        simp [Memory.read, ← hk, Ne.symm h]
      · simp [Memory.read, ih]

/-- The canonical form says that the first address is below every later one, and the rest is canonical. -/
theorem Memory.wf_cons (c : Host.Cell) (m : Memory) :
    Memory.wf (c :: m) = true ↔ (∀ d ∈ m.head?, c.1 < d.1) ∧ Memory.wf m = true := by
  cases m <;> simp [Memory.wf]

/-- The head of a memory after a write is the written cell or the old head. -/
theorem Memory.head_write (m : Memory) (a : Nat) (v : Byte) :
    ∀ d ∈ (Memory.write a v m).head?, d.1 = a ∨ d ∈ m.head? := by
  cases m with
  | nil => simp [Memory.write]
  | cons c m =>
    obtain ⟨k, b⟩ := c
    simp only [Memory.write]
    split
    · simp
    · split <;> simp

/-- Storing a byte keeps the canonical form. -/
theorem Memory.wf_write (m : Memory) (a : Nat) (v : Byte) (h : m.wf = true) : (Memory.write a v m).wf = true := by
  induction m with
  | nil => rfl
  | cons c m ih =>
    obtain ⟨k, b⟩ := c
    obtain ⟨hd, hm⟩ := (Memory.wf_cons _ _).1 h
    simp only [Memory.write]
    split
    · rename_i hk
      exact (Memory.wf_cons _ _).2 ⟨by simpa using hk, h⟩
    · split
      · rename_i hk
        exact (Memory.wf_cons _ _).2 ⟨by simpa [hk] using hd, hm⟩
      · refine (Memory.wf_cons _ _).2 ⟨fun d hmem => ?_, ih hm⟩
        rcases Memory.head_write m a v d hmem with h1 | h1
        · simp only [h1]; omega
        · exact hd d h1

/-- The cells after a write are the written one and old ones. -/
theorem Memory.mem_write (m : Memory) (a : Nat) (v : Byte) : ∀ c ∈ Memory.write a v m, c = (a, v) ∨ c ∈ m := by
  induction m with
  | nil => simp [Memory.write]
  | cons d m ih =>
    obtain ⟨k, b⟩ := d
    intro c hc
    simp only [Memory.write] at hc
    split at hc
    · simpa using hc
    · split at hc
      · rcases List.mem_cons.1 hc with h | h
        · exact .inl h
        · exact .inr (List.mem_cons_of_mem _ h)
      · rcases List.mem_cons.1 hc with h | h
        · exact .inr (h ▸ List.mem_cons_self)
        · exact (ih c h).imp_right (List.mem_cons_of_mem _)

/-- A multi-byte store keeps the canonical form. -/
theorem Memory.wf_writeBytes (bs : List Byte) : ∀ (m : Memory) (a : Nat), m.wf = true → (m.writeBytes a bs).wf = true := by
  induction bs with
  | nil => intro m a h; exact h
  | cons b bs ih => intro m a h; exact ih _ _ (Memory.wf_write m a b h)

/-- `MemWrite` keeps the canonical form. -/
theorem Memory.wf_memWrite (m : Memory) (a n : Nat) (v : Word) (h : m.wf = true) : (m.memWrite a n v).wf = true :=
  Memory.wf_writeBytes _ m a h

/-- A multi-byte store leaves every byte outside it. -/
theorem Memory.read_writeBytes_outside (bs : List Byte) :
    ∀ (m : Memory) (a x : Nat), (x < a ∨ a + bs.length ≤ x) → (m.writeBytes a bs).read x = m.read x := by
  induction bs with
  | nil => intro m a x _; rfl
  | cons b bs ih =>
    intro m a x h
    simp only [List.length_cons] at h
    rw [Memory.writeBytes, ih _ _ _ (by omega), Memory.read_write_other m b (by omega)]

/-- A multi-byte store's bytes read as stored. -/
theorem Memory.read_writeBytes_inside (bs : List Byte) :
    ∀ (m : Memory) (a i : Nat) (h : i < bs.length), (m.writeBytes a bs).read (a + i) = some bs[i] := by
  induction bs with
  | nil => intro m a i h; simp at h
  | cons b bs ih =>
    intro m a i h
    cases i with
    | zero => rw [Memory.writeBytes, Memory.read_writeBytes_outside bs _ _ _ (by omega)]; simp
    | succ i =>
      rw [Memory.writeBytes, show a + (i + 1) = (a + 1) + i by omega]
      simpa using ih (Memory.write a b m) (a + 1) i (by simpa using h)

/-- The cells after a multi-byte store lie where the old ones and the stored bytes lie. -/
theorem Memory.mem_writeBytes (bs : List Byte) :
    ∀ (m : Memory) (a : Nat), ∀ c ∈ m.writeBytes a bs, (a ≤ c.1 ∧ c.1 < a + bs.length) ∨ c ∈ m := by
  induction bs with
  | nil => intro m a c h; exact .inr h
  | cons b bs ih =>
    intro m a c h
    simp only [List.length_cons]
    rcases ih _ _ c h with h1 | h1
    · exact .inl (by omega)
    · rcases Memory.mem_write m a b c h1 with h2 | h2
      · exact .inl (by simp [h2])
      · exact .inr h2

@[simp] theorem leBytes_length (n : Nat) (v : Word) : (leBytes n v).length = n := by simp [leBytes]

/-- `MemWrite` stores byte i of the value at address a + i (R54). -/
theorem Memory.read_memWrite_inside (m : Memory) (a n : Nat) (v : Word) {i : Nat} (h : i < n) :
    (m.memWrite a n v).read (a + i) = some (v.extractLsb' (8 * i) 8) := by
  rw [Memory.memWrite, Memory.read_writeBytes_inside _ _ _ _ (by simpa using h)]
  simp [leBytes]

/-- `MemWrite` leaves every byte outside the n it stores. -/
theorem Memory.read_memWrite_outside (m : Memory) (a n : Nat) (v : Word) {x : Nat} (h : x < a ∨ a + n ≤ x) :
    (m.memWrite a n v).read x = m.read x :=
  Memory.read_writeBytes_outside _ _ _ _ (by simpa using h)

/-- What a multi-byte read answers: the bytes in order. -/
theorem Memory.readBytes_eq_some (m : Memory) :
    ∀ (n a : Nat) (k : List Byte),
      m.readBytes a n = some k ↔ k.length = n ∧ ∀ j (h : j < k.length), m.read (a + j) = some k[j] := by
  intro n
  induction n with
  | zero =>
    intro a k
    constructor
    · intro h; cases h; simp
    · intro h; rw [List.length_eq_zero_iff.1 h.1]; rfl
  | succ n ih =>
    intro a k
    cases k with
    | nil =>
      simp only [Memory.readBytes, List.length_nil]
      constructor
      · intro h; split at h <;> simp at h
      · intro h; omega
    | cons b k =>
      simp only [Memory.readBytes, List.length_cons, Nat.add_right_cancel_iff]
      constructor
      · intro h
        split at h
        · simp at h
        · rename_i b' hb
          simp only [Option.map_eq_some_iff, List.cons.injEq] at h
          obtain ⟨k', hk, rfl, rfl⟩ := h
          obtain ⟨hl, hr⟩ := (ih _ _).1 hk
          refine ⟨hl, fun j hj => ?_⟩
          cases j with
          | zero => simpa using hb
          | succ j =>
            simpa [show a + (j + 1) = a + 1 + j by omega] using hr j (by simpa using hj)
      · intro h
        have h0 : m.read a = some b := by simpa using h.2 0 (by simp)
        simp only [h0, Option.map_eq_some_iff, List.cons.injEq, true_and]
        refine ⟨k, (ih _ _).2 ⟨h.1, fun j hj => ?_⟩, rfl⟩
        have hj' := h.2 (j + 1) (by simpa using hj)
        rwa [show a + (j + 1) = a + 1 + j by omega] at hj'

/-- A multi-byte read answers nothing where one of its bytes is unwritten. -/
theorem Memory.readBytes_eq_none (m : Memory) :
    ∀ (n a : Nat), m.readBytes a n = none ↔ ∃ j < n, m.read (a + j) = none := by
  intro n
  induction n with
  | zero => intro a; simp [Memory.readBytes]
  | succ n ih =>
    intro a
    rw [Memory.readBytes]
    split
    · rename_i h
      simp only [true_iff]
      exact ⟨0, by omega, by simpa using h⟩
    · rename_i b h
      simp only [Option.map_eq_none_iff, ih]
      constructor
      · rintro ⟨j, hj, hr⟩
        exact ⟨j + 1, by omega, by rwa [show a + (j + 1) = a + 1 + j by omega]⟩
      · rintro ⟨j, hj, hr⟩
        cases j with
        | zero => simp [h] at hr
        | succ j => exact ⟨j, by omega, by rwa [show a + 1 + j = a + (j + 1) by omega]⟩

end Sys2Proof.Machine
end

