-- ==== Sys2Proof/Laws/WordReads.lean ====
section
/-! SUPPORT. The laws of the little-endian sum (R13, R54) and of the word reads of HASHW (R60). -/

namespace Sys2Proof.Machine

/-- The little-endian sum as a number, and its bound. -/
theorem leSum_toNat : ∀ (bs : List Byte) (sh : Nat), bs.length * 8 + sh ≤ 32 →
    (leSum sh bs).toNat = bs.foldr (fun b acc => b.toNat + 256 * acc) 0 * 2 ^ sh ∧
      bs.foldr (fun b acc => b.toNat + 256 * acc) 0 < 256 ^ bs.length := by
  intro bs
  induction bs with
  | nil => intro sh _; simp [leSum]
  | cons b bs ih =>
    intro sh h
    simp only [List.length_cons] at h
    obtain ⟨h1, h2⟩ := ih (sh + 8) (by omega)
    have hb := b.isLt
    have hlt : List.foldr (fun b acc => b.toNat + 256 * acc) 0 (b :: bs) < 256 ^ (b :: bs).length := by
      simp only [List.foldr_cons, List.length_cons, Nat.pow_succ]
      omega
    refine ⟨?_, hlt⟩
    simp only [leSum, BitVec.toNat_add, h1, zext32, BitVec.toNat_shiftLeft, BitVec.toNat_setWidth, List.foldr_cons,
      Nat.shiftLeft_eq]
    have e : (2 : Nat) ^ (sh + 8) = 256 * 2 ^ sh := by rw [Nat.pow_add]; ring
    have hp : 2 ^ sh * 256 ^ (bs.length + 1) ≤ 2 ^ 32 := by
      rw [show (256 : Nat) = 2 ^ 8 by rfl, ← Nat.pow_mul, ← Nat.pow_add]
      exact Nat.pow_le_pow_right (by omega) (by omega)
    have h4 : (b.toNat + 256 * List.foldr (fun b acc => b.toNat + 256 * acc) 0 bs) * 2 ^ sh < 2 ^ 32 := by
      refine Nat.lt_of_lt_of_le ?_ hp
      rw [Nat.mul_comm]
      exact Nat.mul_lt_mul_of_pos_left (by simpa using hlt) (by positivity)
    have h5 : b.toNat * 2 ^ sh < 2 ^ 32 := Nat.lt_of_le_of_lt (Nat.mul_le_mul_right _ (by omega)) h4
    rw [Nat.mod_eq_of_lt (show b.toNat < 2 ^ 32 by omega), Nat.mod_eq_of_lt h5, e]
    rw [show b.toNat * 2 ^ sh + List.foldr (fun b acc => b.toNat + 256 * acc) 0 bs * (256 * 2 ^ sh) =
      (b.toNat + 256 * List.foldr (fun b acc => b.toNat + 256 * acc) 0 bs) * 2 ^ sh by ring]
    exact Nat.mod_eq_of_lt h4

/-- The bytes of a word sum to the word. -/
theorem leSum_leBytes (w : Word) : leSum 0 (leBytes 4 w) = w := by
  apply BitVec.eq_of_toNat_eq
  rw [(leSum_toNat _ 0 (by simp)).1]
  have := w.isLt
  simp [leBytes, List.range_succ, BitVec.extractLsb'_toNat, Nat.shiftRight_eq_div_pow]
  omega

/-- Byte j of the sum of one, two or four bytes is byte j. -/
theorem leSum_byte (k : List Byte) (hk : k.length = 1 ∨ k.length = 2 ∨ k.length = 4) (j : Nat) (h : j < k.length) :
    (leSum 0 k).extractLsb' (8 * j) 8 = k[j] := by
  apply BitVec.eq_of_toNat_eq
  rw [BitVec.extractLsb'_toNat, (leSum_toNat k 0 (by omega)).1, Nat.shiftRight_eq_div_pow]
  rcases k with _ | ⟨a, _ | ⟨b, _ | ⟨c, _ | ⟨d, _ | _⟩⟩⟩⟩ <;> simp at hk h ⊢
  · subst h; simp; exact a.isLt
  · have := a.isLt; have := b.isLt
    rcases (show j = 0 ∨ j = 1 by omega) with rfl | rfl <;> simp <;> omega
  · have := a.isLt; have := b.isLt; have := c.isLt; have := d.isLt
    rcases (show j = 0 ∨ j = 1 ∨ j = 2 ∨ j = 3 by omega) with rfl | rfl | rfl | rfl <;> simp <;> omega

/-- `MemRead` of written bytes is their little-endian sum (R13). -/
theorem Memory.memRead_eq_some {m : Memory} {a n : Nat} {k : List Byte} (hl : k.length = n)
    (h : ∀ j (h : j < k.length), m.read (a + j) = some k[j]) : m.memRead a n = some (leSum 0 k) := by
  rw [Memory.memRead, (Memory.readBytes_eq_some m n a k).2 ⟨hl, h⟩]
  rfl

/-- `MemRead` answers nothing where one of its bytes is unwritten (R39). -/
theorem Memory.memRead_eq_none (m : Memory) (a n : Nat) : m.memRead a n = none ↔ ∃ j < n, m.read (a + j) = none := by
  rw [Memory.memRead, Option.map_eq_none_iff, Memory.readBytes_eq_none]

/-- The words of a key whose bytes are written (R60). -/
theorem Memory.readWords_eq_some (m : Memory) :
    ∀ (n a : Nat) (k : List Word), k.length = n →
      (∀ j (h : j < k.length), ∀ i < 4, m.read (a + 4 * j + i) = some (k[j].extractLsb' (8 * i) 8)) →
      m.readWords a n = some k := by
  intro n
  induction n with
  | zero => intro a k h _; rw [List.length_eq_zero_iff.1 h]; rfl
  | succ n ih =>
    intro a k hl hk
    cases k with
    | nil => simp at hl
    | cons w k =>
      have h1 : m.memRead a 4 = some w := by
        rw [Memory.memRead_eq_some (k := leBytes 4 w) (by simp) (fun j hj => by
          have := hk 0 (by simp) j (by simpa using hj)
          simpa [leBytes] using this), leSum_leBytes]
      rw [Memory.readWords, h1]
      simp only [ih (a + 4) k (by simpa using hl) (fun j hj i hi => by
        have := hk (j + 1) (by simpa using hj) i hi
        rw [show a + 4 + 4 * j + i = a + 4 * (j + 1) + i by omega]
        exact this)]
      rfl

/-- A word key answers nothing where one of its bytes is unwritten (R60). -/
theorem Memory.readWords_eq_none (m : Memory) :
    ∀ (n a : Nat), (∃ j < 4 * n, m.read (a + j) = none) → m.readWords a n = none := by
  intro n
  induction n with
  | zero => rintro a ⟨j, h, _⟩; omega
  | succ n ih =>
    rintro a ⟨j, hj, hr⟩
    rw [Memory.readWords]
    split
    · rfl
    · rename_i w hw
      by_cases h4 : j < 4
      · rw [(Memory.memRead_eq_none _ _ _).2 ⟨j, h4, hr⟩] at hw
        cases hw
      · rw [ih (a + 4) ⟨j - 4, by omega, by rwa [show a + 4 + (j - 4) = a + j by omega]⟩]
        rfl

end Sys2Proof.Machine
end

