-- ==== Sys2Proof/Laws/Machine.lean ====
section
/-! SUPPORT. One lemma per shared operation that says everything it can do, cited instead of unfolding it. -/

namespace Sys2Proof.Machine

/-! ## Issue (R200) -/

/-- Everything an issue can answer: a model fault on an unwritten operand, a rejection, or an acceptance. -/
theorem issue_cases (i : Instr) (s : State) :
    (operandsWritten i s = false ∧ issue i s = .fault .uninitReg) ∨
      (operandsWritten i s = true ∧ ∃ e, issueCheck i s = some e ∧ issue i s = .next (s.reject e)) ∨
      (operandsWritten i s = true ∧ issueCheck i s = none ∧ issue i s = .next (s.accept i)) := by
  unfold issue
  cases hw : operandsWritten i s <;> cases hc : issueCheck i s <;> simp

/-- A command with the Engine idle is its issue. -/
theorem exec_idle (i : Instr) {s : State} (h : s.busy = false) : exec i s = issue i s := by
  cases i <;>
    simp [exec, execNop, execMix, execHashb, execHashw, execHash3, execHash2, execHash1, execMapr, execPmap, command, h]

/-! ## The perform step (R201) -/

/-- MapInto is applied under its precondition only (R180, R182). -/
theorem mapChecked_eq_some {h lo hi m : Word} :
    mapChecked h lo hi = some m ↔ lo.toNat ≤ hi.toNat ∧ m = mapInto h lo hi := by
  unfold mapChecked
  by_cases hh : lo.toNat ≤ hi.toNat
  · rw [if_pos hh, Option.some.injEq]
    exact ⟨fun e => ⟨hh, e.symm⟩, fun e => e.2.symm⟩
  · rw [if_neg hh]
    exact ⟨fun e => (nomatch e), fun e => absurd e.1 hh⟩

/-! The perform step of each command, by its shared operation. -/

theorem exec_perform_nop {s : State} (hb : s.busy = true) : exec .nop s = .next s.finishPerform := by
  simp only [exec, execNop, command, hb, if_true]

theorem exec_perform_mix {s : State} (hb : s.busy = true) :
    exec .mix s = .next (performMix (mix ⟨s.regVal .arg0, s.regVal .arg1, s.regVal .arg2⟩) s) := by
  simp only [exec, execMix, command, hb, if_true]

theorem exec_perform_hashb {s : State} (hb : s.busy = true) :
    (s.keymem.readBytes (s.regVal .kbase).toNat (s.regVal .len).toNat = none ∧ exec .hashb s = .fault .uninitKey) ∨
      ∃ k, s.keymem.readBytes (s.regVal .kbase).toNat (s.regVal .len).toNat = some k ∧
        exec .hashb s = .next (performHash (hashBytesState k (s.regVal .len) (s.regVal .seed)) s) := by
  simp only [exec, execHashb, command, hb, if_true]
  cases s.keymem.readBytes (s.regVal .kbase).toNat (s.regVal .len).toNat <;> simp

theorem exec_perform_hashw {s : State} (hb : s.busy = true) :
    (s.keymem.readWords (s.regVal .kbase).toNat (s.regVal .len).toNat = none ∧ exec .hashw s = .fault .uninitKey) ∨
      ∃ k, s.keymem.readWords (s.regVal .kbase).toNat (s.regVal .len).toNat = some k ∧
        exec .hashw s = .next (performHash (hashWordsState k (s.regVal .len) (s.regVal .seed)) s) := by
  simp only [exec, execHashw, command, hb, if_true]
  cases s.keymem.readWords (s.regVal .kbase).toNat (s.regVal .len).toNat <;> simp

theorem exec_perform_hash3 {s : State} (hb : s.busy = true) :
    exec .hash3 s =
      .next (performHash (hash3State (s.regVal .arg0) (s.regVal .arg1) (s.regVal .arg2) (s.regVal .seed)) s) := by
  simp only [exec, execHash3, command, hb, if_true]

theorem exec_perform_hash2 {s : State} (hb : s.busy = true) :
    exec .hash2 s = .next (performHash (hash3State (s.regVal .arg0) (s.regVal .arg1) 0 (s.regVal .seed)) s) := by
  simp only [exec, execHash2, command, hb, if_true]

theorem exec_perform_hash1 {s : State} (hb : s.busy = true) :
    exec .hash1 s = .next (performHash (hash3State (s.regVal .arg0) 0 0 (s.regVal .seed)) s) := by
  simp only [exec, execHash1, command, hb, if_true]

theorem exec_perform_mapr {s : State} (hb : s.busy = true) :
    (mapChecked (s.regVal .arg0) (s.regVal .rmin) (s.regVal .rmax) = none ∧
        exec .mapr s = .refused .rangePrecondition) ∨
      ∃ m, mapChecked (s.regVal .arg0) (s.regVal .rmin) (s.regVal .rmax) = some m ∧
        exec .mapr s = .next (performMapr m s) := by
  simp only [exec, execMapr, command, hb, if_true]
  cases mapChecked (s.regVal .arg0) (s.regVal .rmin) (s.regVal .rmax) <;> simp

theorem exec_perform_pmap {s : State} (hb : s.busy = true) :
    (mapChecked (hash3State (s.regVal .arg0) 0 0 (s.regVal .seed)).c (s.regVal .rmin) (s.regVal .rmax) = none ∧
        exec .pmap s = .refused .rangePrecondition) ∨
      ∃ m, mapChecked (hash3State (s.regVal .arg0) 0 0 (s.regVal .seed)).c (s.regVal .rmin) (s.regVal .rmax) = some m ∧
        exec .pmap s = .next (performPmap (hash3State (s.regVal .arg0) 0 0 (s.regVal .seed)) m s) := by
  simp only [exec, execPmap, command, hb, if_true]
  cases mapChecked (hash3State (s.regVal .arg0) 0 0 (s.regVal .seed)).c (s.regVal .rmin) (s.regVal .rmax) <;> simp

/-- The states a perform step can leave, one per shape of result set (R85). -/
theorem exec_perform_shapes {i : Instr} {s t : State} (hb : s.busy = true) (h : exec i s = .next t) :
    (i = .nop ∧ t = s.finishPerform) ∨ (i = .mix ∧ ∃ k, t = performMix k s) ∨
      (i ∈ [Instr.hashb, .hashw, .hash3, .hash2, .hash1] ∧ ∃ k, t = performHash k s) ∨
      (i = .mapr ∧ ∃ m, t = performMapr m s) ∨ (i = .pmap ∧ ∃ k m, t = performPmap k m s) := by
  cases i
  case nop => rw [exec_perform_nop hb] at h; exact .inl ⟨rfl, (Host.Outcome.next.inj h).symm⟩
  case mix => rw [exec_perform_mix hb] at h; exact .inr (.inl ⟨rfl, _, (Host.Outcome.next.inj h).symm⟩)
  case hashb =>
    rcases exec_perform_hashb hb with ⟨_, he⟩ | ⟨k, _, he⟩
    · rw [he] at h; cases h
    · rw [he] at h; exact .inr (.inr (.inl ⟨by simp, _, (Host.Outcome.next.inj h).symm⟩))
  case hashw =>
    rcases exec_perform_hashw hb with ⟨_, he⟩ | ⟨k, _, he⟩
    · rw [he] at h; cases h
    · rw [he] at h; exact .inr (.inr (.inl ⟨by simp, _, (Host.Outcome.next.inj h).symm⟩))
  case hash3 => rw [exec_perform_hash3 hb] at h; exact .inr (.inr (.inl ⟨by simp, _, (Host.Outcome.next.inj h).symm⟩))
  case hash2 => rw [exec_perform_hash2 hb] at h; exact .inr (.inr (.inl ⟨by simp, _, (Host.Outcome.next.inj h).symm⟩))
  case hash1 => rw [exec_perform_hash1 hb] at h; exact .inr (.inr (.inl ⟨by simp, _, (Host.Outcome.next.inj h).symm⟩))
  case mapr =>
    rcases exec_perform_mapr hb with ⟨_, he⟩ | ⟨m, _, he⟩
    · rw [he] at h; cases h
    · rw [he] at h; exact .inr (.inr (.inr (.inl ⟨rfl, m, (Host.Outcome.next.inj h).symm⟩)))
  case pmap =>
    rcases exec_perform_pmap hb with ⟨_, he⟩ | ⟨m, _, he⟩
    · rw [he] at h; cases h
    · rw [he] at h; exact .inr (.inr (.inr (.inr ⟨rfl, _, m, (Host.Outcome.next.inj h).symm⟩)))

/-- The perform step of a command that answers a next state writes results and STATUS and discards the accumulators; the
rest of the state is as before (R85, R201). -/
theorem exec_perform_next {i : Instr} {s t : State} (hb : s.busy = true) (h : exec i s = .next t) :
    t = { s with res0 := t.res0, res1 := t.res1, res2 := t.res2, status := statusDone, acc := none } := by
  rcases exec_perform_shapes hb h with ⟨-, rfl⟩ | ⟨-, k, rfl⟩ | ⟨-, k, rfl⟩ | ⟨-, m, rfl⟩ | ⟨-, k, m, rfl⟩ <;> rfl

/-- A perform step faults only where HASHB or HASHW reads an unwritten key byte (R201). -/
theorem exec_perform_fault {i : Instr} {s : State} {r : Fault} (hb : s.busy = true) (h : exec i s = .fault r) :
    r = .uninitKey ∧ (i = .hashb ∨ i = .hashw) := by
  cases i <;>
    simp only [exec, execNop, execMix, execHashb, execHashw, execHash3, execHash2, execHash1, execMapr, execPmap, command,
      hb, if_true, reduceCtorEq] at h <;>
    split at h <;> cases h <;> simp

/-- A perform step refuses only MAPR or PMAP with RMIN > RMAX, which no issue accepts (R182). -/
theorem exec_perform_refused {i : Instr} {s : State} {r : Refusal} (hb : s.busy = true) (h : exec i s = .refused r) :
    r = .rangePrecondition ∧ issueCheck i s = some .range := by
  cases i <;>
    simp only [exec, execNop, execMix, execHashb, execHashw, execHash3, execHash2, execHash1, execMapr, execPmap, command,
      hb, if_true, reduceCtorEq] at h <;>
    split at h <;> cases h <;> simp_all [mapChecked, issueCheck]

/-! ## The host's accesses (R53, R55) -/

/-- Every register lies where the register map says, and the map has no other entry (R21). -/
@[simp] theorem atOffset_offset (r : HostReg) : HostReg.atOffset r.offset = some r := by cases r <;> rfl

/-- The key window in numbers (R51). -/
theorem inKeyWindow_iff (s : State) (off : Nat) :
    s.inKeyWindow off = true ↔ 0x1000 ≤ off ∧ off < 0x1000 + s.cfg.keyBytes := by
  simp only [State.inKeyWindow, Bool.and_eq_true, decide_eq_true_eq]
  exact Iff.rfl

/-- An offset below the key window lies outside it. -/
theorem inKeyWindow_register (s : State) {off : Nat} (h : off < registerEnd) : s.inKeyWindow off = false := by
  simp only [registerEnd] at h
  have hk : ¬keyWindowBase ≤ off := by simp only [keyWindowBase]; omega
  simp [State.inKeyWindow, hk]

/-- Everything a write to an idle block that answers a next state has done: stored key bytes, stored a register, or issued
a command word. -/
theorem hostWrite_next {off n : Nat} {v : Word} {s t : State} (h : hostWrite off n v s = .next t) :
    s.busy = false ∧
      ((s.inKeyWindow off = true ∧ widthOk n = true ∧ off % n = 0 ∧
          t = { s with keymem := s.keymem.memWrite (off - keyWindowBase) n v }) ∨
        (∃ r, HostReg.atOffset off = some r ∧ r.readWrite = true ∧ t = s.writeReg r v) ∨
        (HostReg.atOffset off = some .cmd ∧ issueWord v s = .next t)) := by
  unfold hostWrite at h
  split at h
  · cases h
  rename_i hb
  refine ⟨by simpa using hb, ?_⟩
  split at h
  · rename_i hk
    split at h
    · rename_i hw
      simp only [Bool.and_eq_true, beq_iff_eq] at hw
      exact .inl ⟨hk, hw.1, hw.2, by simpa using h.symm⟩
    · cases h
  · split at h
    · split at h
      · split at h
        · rename_i r hr
          cases r <;> simp only [hostWriteReg, reduceCtorEq, Host.Outcome.next.injEq] at h
          case cmd => exact .inr (.inr ⟨hr, h⟩)
          all_goals exact .inr (.inl ⟨_, hr, rfl, h.symm⟩)
        · cases h
      · cases h
    · cases h

/-- Everything the issue of a word by an idle Engine can answer (R200, R81). -/
theorem issueWord_cases (w : Word) {s : State} (hb : s.busy = false) :
    (∃ e, decodeWord w = .error e ∧ issueWord w s = .next (s.reject .illegal)) ∨
      (∃ i, decodeWord w = .ok i ∧ issueWord w s = issue i s) := by
  unfold issueWord
  cases hd : decodeWord w with
  | error e => exact .inl ⟨e, rfl, rfl⟩
  | ok i => exact .inr ⟨i, rfl, exec_idle i hb⟩

/-- Everything the Host's move can do when it answers a next state: nothing, a write, or a read that only the host's side
of the machine records (R55). -/
theorem hostTurn_next {s t : State} (h : hostTurn s = .next t) :
    t = s ∨ (∃ off n v rest, s.program = .write off n v :: rest ∧ hostWrite off n v { s with program := rest } = .next t) ∨
      (∃ v p, t = { s with program := p, reads := s.reads ++ [v] }) := by
  unfold hostTurn at h
  split at h
  · exact .inl (by simpa using h.symm)
  · rename_i off n v rest hp
    exact .inr (.inl ⟨off, n, v, rest, hp, h⟩)
  · split at h
    · simp only [Host.Outcome.next.injEq] at h
      exact .inr (.inr ⟨_, _, h.symm⟩)
    · cases h
  · split at h
    · simp only [Host.Outcome.next.injEq] at h
      exact .inr (.inr ⟨_, _, h.symm⟩)
    · cases h

/-- The turn taken from the schedule changes the schedule alone. -/
theorem nextTurn_state (s : State) : ∃ sch, (nextTurn s).2 = { s with schedule := sch } := by
  unfold nextTurn
  split
  · exact ⟨_, rfl⟩
  · exact ⟨s.schedule, rfl⟩

/-- With a schedule, its first turn is taken. -/
theorem nextTurn_cons {s : State} {t : Turn} {rest : List Turn} (h : s.schedule = t :: rest) :
    nextTurn s = (t, { s with schedule := rest }) := by
  unfold nextTurn
  simp only [h]

/-- Past the schedule's end the Engine moves if it is enabled, else the Host (R204). -/
theorem nextTurn_nil {s : State} (h : s.schedule = []) : nextTurn s = (if s.busy then .engine else .host, s) := by
  unfold nextTurn
  simp only [h]

/-- While no fault is marked, a step is one move. -/
theorem step_noFault {s : State} (h : s.fault = none) : step s = takeTurn (nextTurn s).1 (nextTurn s).2 := by
  unfold step stepOnce
  simp only [h]

/-- Everything a step that answers a next state can do: no fault was marked, and one move was made (R40, R63). -/
theorem step_next {s t : State} (h : step s = .next t) :
    s.fault = none ∧
      ∃ sch, (hostTurn { s with schedule := sch } = .next t) ∨ (engineTurn { s with schedule := sch } = .next t) ∨
        t = ({ s with schedule := sch } : State).platformReset := by
  unfold step stepOnce at h
  cases hf : s.fault with
  | some r => simp [hf] at h
  | none =>
    obtain ⟨sch, hs⟩ := nextTurn_state s
    simp only [hf, hs] at h
    refine ⟨rfl, sch, ?_⟩
    cases ht : (nextTurn s).1 <;> simp only [ht, takeTurn, Host.Outcome.next.injEq] at h
    · exact .inl h
    · exact .inr (.inl h)
    · exact .inr (.inr h.symm)

/-- Everything the Engine's move can do (R201): nothing while idle, else the latched command. -/
theorem engineTurn_cases (s : State) :
    (s.busy = false ∧ engineTurn s = .next s) ∨
      (s.busy = true ∧ ∃ i, decodeOpcode s.lop = .ok i ∧ engineTurn s = exec i s) ∨
      (s.busy = true ∧ (∃ e, decodeOpcode s.lop = .error e) ∧ engineTurn s = .refused .lopNotAnOpcode) := by
  unfold engineTurn
  cases hb : s.busy <;> cases hd : decodeOpcode s.lop <;> simp

end Sys2Proof.Machine
end

