-- ==== Sys2Proof/Laws/PerInstr.lean ====
section
/-! SUPPORT. What is stated per command about its encoding: the reserved field is zero, and the opcode is the one issue
latches (R80, R200). -/

namespace Sys2Proof.Laws.CommandWordFields

/-- The command word of i has RSVD zero and OPCODE the opcode of i (R80). -/
def Statement (i : Instr) : Prop := rsvdField (encode i) = 0 ∧ opcodeField (encode i) = opcodeOf i

theorem nop : Statement .nop := ⟨by decide, by decide⟩
theorem mix : Statement .mix := ⟨by decide, by decide⟩
theorem hashb : Statement .hashb := ⟨by decide, by decide⟩
theorem hashw : Statement .hashw := ⟨by decide, by decide⟩
theorem hash3 : Statement .hash3 := ⟨by decide, by decide⟩
theorem hash2 : Statement .hash2 := ⟨by decide, by decide⟩
theorem hash1 : Statement .hash1 := ⟨by decide, by decide⟩
theorem mapr : Statement .mapr := ⟨by decide, by decide⟩
theorem pmap : Statement .pmap := ⟨by decide, by decide⟩

end Sys2Proof.Laws.CommandWordFields
end

