-- ==== Sys2Proof/Certificates/Slice0/Obligations.lean ====
section
/-! DEFINITION. The statements for the provers, from the spec's numbered rules. Each command's statement gives both phases of
its life: the perform step (BUSY = 1) and the issue (BUSY = 0). -/

open Sys2Proof Sys2Proof.Machine

/-! ## Encoding -/

/-- R82: the command word of each command. Sanity: the words are written out from the table. -/
def Obligations.CommandWordsOfTheOpcodeMap : Prop :=
  encode .nop = 0x00000000 ∧ encode .mix = 0x00000001 ∧ encode .hashb = 0x00000002 ∧ encode .hashw = 0x00000003 ∧
    encode .hash3 = 0x00000004 ∧ encode .hash2 = 0x00000005 ∧ encode .hash1 = 0x00000006 ∧ encode .mapr = 0x00000007 ∧
    encode .pmap = 0x00000008 ∧
    decodeWord 0b00000000000000000000000000000010#32 = .ok .hashb ∧
    decodeWord 0b00000000000000000000000000001000#32 = .ok .pmap ∧
    decodeWord 0b00000000000000000000000100000010#32 = .error .reservedBits ∧
    decodeWord 0b00000000000000000000000000001001#32 = .error .reservedOpcode

/-- R81, R86: over all 2^32 words, a word decodes to i exactly if RSVD = 0 and its opcode is that of i in the map, which is
exactly if it is the command word of i; it is a command exactly if RSVD = 0 and its opcode is 0x00..0x08; and the issue of
any other word is the rejection ILLEGAL, with nothing else done. -/
def Obligations.DecodeIsExactlyTheOpcodeMap : Prop :=
  ∀ w : Word,
    (∀ p ∈ [(Instr.nop, 0x00), (.mix, 0x01), (.hashb, 0x02), (.hashw, 0x03), (.hash3, 0x04), (.hash2, 0x05),
        (.hash1, 0x06), (.mapr, 0x07), (.pmap, 0x08)],
      decodeWord w = .ok p.1 ↔ w.toNat / 2 ^ 8 = 0 ∧ w.toNat % 2 ^ 8 = p.2) ∧
    (∀ i, decodeWord w = .ok i ↔ w = encode i) ∧
    ((∃ i, decodeWord w = .ok i) ↔ w.toNat / 2 ^ 8 = 0 ∧ w.toNat % 2 ^ 8 ≤ 0x08) ∧
    ((¬∃ i, decodeWord w = .ok i) →
      ∀ s : State, s.busy = false → hostWrite 0x000 4 w s = .next { s with status := 0x00000016 })

/-- R21: the register map, both ways. -/
def Obligations.RegisterMapOffsets : Prop :=
  (HostReg.offset .cmd = 0x000 ∧ HostReg.offset .status = 0x004 ∧ HostReg.offset .seed = 0x008 ∧
    HostReg.offset .len = 0x00C ∧ HostReg.offset .kbase = 0x010 ∧ HostReg.offset .rmin = 0x014 ∧
    HostReg.offset .rmax = 0x018 ∧ HostReg.offset .arg0 = 0x01C ∧ HostReg.offset .arg1 = 0x020 ∧
    HostReg.offset .arg2 = 0x024 ∧ HostReg.offset .res0 = 0x028 ∧ HostReg.offset .res1 = 0x02C ∧
    HostReg.offset .res2 = 0x030) ∧
  ∀ off r, HostReg.atOffset off = some r ↔ off = r.offset

/-! ## Reset and the invariant -/

/-- R250: what reset leaves, asserted in any state, a busy one included. -/
def Obligations.ResetLeavesTheResetState : Prop :=
  ∀ s : State,
    let t := s.platformReset
    t.status = 0x00000000 ∧ t.seed = 0x00000000 ∧ t.busy = false ∧ t.acc = none ∧ t.fault = none ∧ t.cfg = s.cfg ∧
    (∀ r ∈ [HostReg.len, .kbase, .rmin, .rmax, .arg0, .arg1, .arg2, .res0, .res1, .res2],
      t.regWritten r = false ∧ hostRead r.offset 4 t = .error .uninitReg) ∧
    (∀ a, t.keymem.read a = none) ∧
    (∀ off n, 0x1000 ≤ off → off < 0x1000 + t.cfg.keyBytes → n = 1 ∨ n = 2 ∨ n = 4 → off % n = 0 →
      hostRead off n t = .error .uninitKey)

/-- The platform's turn resets the block whatever it is doing, and the model's `State.reset` is a reset state. The turn and
the parameters are the model's choices (assumptions 3, 5, 9). -/
def Obligations.ResetTurnResets : Prop :=
  (∀ (s : State) (rest : List Turn), s.fault = none → s.schedule = .reset :: rest →
    step s = .next ({ s with schedule := rest } : State).platformReset) ∧
  State.reset = State.reset.platformReset ∧ State.reset.cfg = { keyBytes := 0x1000, nheBase := 0 }

/-- The reset state keeps the invariant, for every legal value of the parameters. -/
def Obligations.ResetMeetsTheInvariant : Prop :=
  (∀ cfg : Config, cfg.wf = true → (State.resetWith cfg).Inv) ∧ State.reset.Inv

/-- The headline invariant: every step keeps STATUS legal (R23), the key buffer canonical and inside its size (R35), the
accumulators discarded (R36), and a busy Engine holding a checked command (R64, R201). -/
def Obligations.StepKeepsTheInvariant : Prop :=
  ∀ s t : State, s.Inv → step s = .next t → t.Inv

/-- No step from a state that keeps the invariant is refused: every refusal of the model is out of reach. -/
def Obligations.StepIsNeverRefused : Prop :=
  ∀ s : State, s.Inv → ∀ r, step s ≠ .refused r

/-- The forms the model refuses by name (U3, R201): MAPR and PMAP performed with RMIN > RMAX, and a busy Engine whose LOP is
no opcode. No state that keeps the invariant is one of them. -/
def Obligations.RefusedFormsBreakTheInvariant : Prop :=
  ∀ s : State, s.busy = true →
    (s.rmax.value.toNat < s.rmin.value.toNat →
      exec .mapr s = .refused .rangePrecondition ∧ exec .pmap s = .refused .rangePrecondition) ∧
    (s.lop = 0x07 ∨ s.lop = 0x08 → s.rmax.value.toNat < s.rmin.value.toNat → ¬s.Inv) ∧
    (0x08 < s.lop.toNat → engineTurn s = .refused .lopNotAnOpcode ∧ ¬s.Inv)

/-- R23: the values of STATUS a host can read, and its reserved bits. -/
def Obligations.StatusReadsAreLegal : Prop :=
  ∀ s : State, s.Inv →
    ∃ v, hostRead 0x004 4 s = .ok v ∧
      (v = 0x00000000 ∨ v = 0x00000001 ∨ v = 0x00000002 ∨ v = 0x00000016 ∨ v = 0x00000026 ∨ v = 0x00000036 ∨
        v = 0x00000046) ∧
      v.getLsbD 3 = false ∧ v.toNat / 2 ^ 8 = 0

/-- R39, R250, U19: what a register holds while its written-flag is clear, and LOP while BUSY = 0, is never read. Two states
that keep the invariant and differ in nothing else take steps that differ in nothing else. -/
def Obligations.UnwrittenContentsNeverRead : Prop :=
  ∀ s t : State, s.Inv → t.Inv → s.visible = t.visible → visibleOutcome (step s) = visibleOutcome (step t)

/-! ## The host's accesses -/

/-- R53, R28 to R33: a write of a read-write register stores the value and sets its flag, a read gives it back, and every
other register, the key buffer, LOP and all else are as before. -/
def Obligations.RegisterWriteStoresAndReadsBack : Prop :=
  ∀ (s : State) (r : HostReg) (v : Word), s.busy = false → r.readWrite = true →
    ∃ t, hostWrite r.offset 4 v s = .next t ∧ t.regVal r = v ∧ t.regWritten r = true ∧ hostRead r.offset 4 t = .ok v ∧
      (∀ q, q ≠ r → t.regVal q = s.regVal q ∧ t.regWritten q = s.regWritten q) ∧
      (∀ a, t.keymem.read a = s.keymem.read a) ∧
      t.keymem = s.keymem ∧ t.lop = s.lop ∧ t.acc = s.acc ∧ t.fault = s.fault ∧ t.cfg = s.cfg ∧
      t.program = s.program ∧ t.reads = s.reads ∧ t.schedule = s.schedule

/-- R55, R39: what a 32-bit read of each register answers with BUSY = 0. CMD reads 0; a register whose flag is clear
faults. -/
def Obligations.RegisterReadGivesValueOrFaults : Prop :=
  ∀ (s : State) (r : HostReg), s.busy = false →
    (r = .cmd → hostRead r.offset 4 s = .ok 0x00000000) ∧
    (r ≠ .cmd → s.regWritten r = true → hostRead r.offset 4 s = .ok (s.regVal r)) ∧
    (r ≠ .cmd → s.regWritten r = false → hostRead r.offset 4 s = .error .uninitReg)

/-- R56. -/
def Obligations.ReadOnlyRegisterWriteFaults : Prop :=
  ∀ (s : State) (r : HostReg) (v : Word), s.busy = false → r ∈ [HostReg.status, .res0, .res1, .res2] →
    hostWrite r.offset 4 v s = .fault .roWrite

/-- R54: the bytes a key-window write of an n-byte value (R53) stores, their order, and that every other byte and the rest of
the state are as before; a word written is the word HASHW reads there; read back at the same width the bytes give the value
written. -/
def Obligations.KeyWriteStoresLittleEndian : Prop :=
  ∀ (s : State) (off n : Nat) (v : Word), s.busy = false → 0x1000 ≤ off → off < 0x1000 + s.cfg.keyBytes →
    n = 1 ∨ n = 2 ∨ n = 4 → off % n = 0 → v.toNat < 2 ^ (8 * n) →
    ∃ t, hostWrite off n v s = .next t ∧
      (∀ i < n, t.keymem.read (off - 0x1000 + i) = some (v.extractLsb' (8 * i) 8)) ∧
      (∀ a, a < off - 0x1000 ∨ off - 0x1000 + n ≤ a → t.keymem.read a = s.keymem.read a) ∧
      t = { s with keymem := t.keymem } ∧
      (n = 4 → t.keymem.readWords (off - 0x1000) 1 = some [v]) ∧
      hostRead off n t = .ok v

/-- The reading of log entry 14: a write of a value wider than n bytes, which R53 excludes, is the write of its n low-order
bytes. -/
def Obligations.TooWideKeyWriteStoresLowBytes : Prop :=
  ∀ (s : State) (off n : Nat) (v : Word), s.busy = false → 0x1000 ≤ off → off < 0x1000 + s.cfg.keyBytes →
    n = 1 ∨ n = 2 ∨ n = 4 → off % n = 0 →
    hostWrite off n v s = hostWrite off n (BitVec.ofNat 32 (v.toNat % 2 ^ (8 * n))) s

/-- R62, first half: a 32-bit write read back byte by byte, and a 16-bit one of a 16-bit value. -/
def Obligations.MixedWidthAccessesAgree : Prop :=
  ∀ (s : State) (off : Nat) (v : Word), s.cfg.wf = true → s.busy = false → 0x1000 ≤ off →
    off < 0x1000 + s.cfg.keyBytes →
    (off % 4 = 0 → ∃ t, hostWrite off 4 v s = .next t ∧
      ∀ i < 4, hostRead (off + i) 1 t = .ok ((v.extractLsb' (8 * i) 8).setWidth 32)) ∧
    (off % 2 = 0 → v.toNat < 2 ^ 16 → ∃ t, hostWrite off 2 v s = .next t ∧
      ∀ i < 2, hostRead (off + i) 1 t = .ok ((v.extractLsb' (8 * i) 8).setWidth 32))

/-- R55, R39: a key-window read of written bytes gives a value of n bytes, each of them in its place; of bytes one of which
is unwritten it faults. -/
def Obligations.KeyReadGivesBytesOrFaults : Prop :=
  ∀ (s : State) (off n : Nat), s.busy = false → 0x1000 ≤ off → off < 0x1000 + s.cfg.keyBytes →
    n = 1 ∨ n = 2 ∨ n = 4 → off % n = 0 →
    (∀ k : List Byte, k.length = n → (∀ j (h : j < k.length), s.keymem.read (off - 0x1000 + j) = some k[j]) →
      ∃ v, hostRead off n s = .ok v ∧ v.toNat < 2 ^ (8 * n) ∧ ∀ j (h : j < k.length), v.extractLsb' (8 * j) 8 = k[j]) ∧
    ((∃ j < n, s.keymem.read (off - 0x1000 + j) = none) → hostRead off n s = .error .uninitKey)

/-- R57: any other width, and any misaligned offset, is F_BAD_ACCESS at a mapped offset; nothing is split or rotated. -/
def Obligations.WrongWidthOrAlignmentFaults : Prop :=
  ∀ (s : State) (off n : Nat) (v : Word), s.busy = false →
    (off < 0x0034 ∧ (n ≠ 4 ∨ off % 4 ≠ 0)) ∨
      (0x1000 ≤ off ∧ off < 0x1000 + s.cfg.keyBytes ∧ ((n ≠ 1 ∧ n ≠ 2 ∧ n ≠ 4) ∨ off % n ≠ 0)) →
    hostWrite off n v s = .fault .badAccess ∧ hostRead off n s = .error .badAccess

/-- R51: an access to an unmapped offset is F_UNMAPPED, whatever its width. -/
def Obligations.UnmappedOffsetFaults : Prop :=
  ∀ (s : State) (off n : Nat) (v : Word), s.busy = false →
    (0x0034 ≤ off ∧ off < 0x1000) ∨ 0x1000 + s.cfg.keyBytes ≤ off →
    hostWrite off n v s = .fault .unmapped ∧ hostRead off n s = .error .unmapped

/-- R260: with BUSY = 1 the host may only read STATUS; any other access is F_BUSY_ACCESS. -/
def Obligations.BusyAllowsOnlyStatusReads : Prop :=
  ∀ s : State, s.busy = true →
    (∀ off n v, hostWrite off n v s = .fault .busyAccess) ∧
    (∀ off n, ¬(off = 0x004 ∧ n = 4) → hostRead off n s = .error .busyAccess) ∧
    hostRead 0x004 4 s = .ok s.status

/-- R55, R59: a read the Host makes changes no state of NHE: the host has its value, and its program moves on. `WAIT` (R89)
reads STATUS alone, stays where it is while BUSY = 1, and moves on when BUSY = 0. What the host keeps is the model's
(assumptions 6, 7). -/
def Obligations.HostReadChangesNothing : Prop :=
  (∀ (s : State) (off n : Nat) (rest : List HostOp), s.program = .read off n :: rest →
    (∀ v, hostRead off n s = .ok v →
      hostTurn s = .next { s with program := rest, reads := s.reads ++ [v] }) ∧
    (∀ r, hostRead off n s = .error r → hostTurn s = .fault r)) ∧
  (∀ (s : State) (rest : List HostOp), s.program = .wait :: rest →
    (s.busy = true → hostTurn s = .next { s with reads := s.reads ++ [s.status] }) ∧
    (s.busy = false → hostTurn s = .next { s with program := rest, reads := s.reads ++ [s.status] }))

/-- R200, R223: the issue of any word either accepts, and then LOP and STATUS alone change, or rejects, and then STATUS
alone changes, BUSY stays 0 and no perform step follows; or it is a model fault. -/
def Obligations.IssueAcceptsOrRejectsPrecisely : Prop :=
  ∀ (s : State) (w : Word), s.busy = false →
    (∃ i, decodeWord w = .ok i ∧ hostWrite 0x000 4 w s = .next { s with lop := w.extractLsb' 0 8, status := 0x00000001 }) ∨
    (∃ e : ErrorCode,
      let t : State := { s with status := 0x00000006 ||| (e.code.setWidth 32 <<< 4) }
      hostWrite 0x000 4 w s = .next t ∧ t.busy = false ∧ t.done = true ∧ t.err = true ∧ t.ecode = e.code ∧
        1 ≤ t.ecode.toNat ∧ t.ecode.toNat ≤ 4 ∧ engineTurn t = .next t) ∨
    (∃ i, decodeWord w = .ok i ∧ hostWrite 0x000 4 w s = .fault .uninitReg)

/-! ## The commands -/

/-- R202. -/
def Obligations.NopPassesThroughIssueAndPerform : Prop :=
  (∀ s : State, s.busy = true → exec .nop s = .next { s with status := 0x00000002, acc := none }) ∧
  (∀ s : State, s.busy = false → exec .nop s = .next { s with lop := 0x00, status := 0x00000001 }) ∧
  encode .nop = 0x00000000 ∧
  (∀ w : Word, w.toNat % 2 ^ 8 = 0 → w.toNat / 2 ^ 8 ≠ 0 → decodeWord w = .error .reservedBits)

/-- R100, R101: the listing of MixCore, its 27 operations in order. -/
def Obligations.MixIsTheListing : Prop :=
  ∀ a b c : Word,
    mix ⟨a, b, c⟩ =
      (let a := a - b; let a := a - c; let a := a ^^^ (c >>> 13)
       let b := b - c; let b := b - a; let b := b ^^^ (a <<< 8)
       let c := c - a; let c := c - b; let c := c ^^^ (b >>> 13)
       let a := a - b; let a := a - c; let a := a ^^^ (c >>> 12)
       let b := b - c; let b := b - a; let b := b ^^^ (a <<< 16)
       let c := c - a; let c := c - b; let c := c ^^^ (b >>> 5)
       let a := a - b; let a := a - c; let a := a ^^^ (c >>> 3)
       let b := b - c; let b := b - a; let b := b ^^^ (a <<< 10)
       let c := c - a; let c := c - b; let c := c ^^^ (b >>> 15)
       ⟨a, b, c⟩)

/-- R102: `Mix` is a bijection, and `Unmix`, the lines inverted from 9 back to 1, is its inverse on both sides. -/
def Obligations.MixIsABijection : Prop :=
  (∀ h : HashState, unmix (mix h) = h) ∧ (∀ h : HashState, mix (unmix h) = h) ∧ Function.Bijective mix ∧
  (∀ (n : Nat) (h : HashState), (h.lineA n).unlineA n = h ∧ (h.lineB n).unlineB n = h ∧ (h.lineC n).unlineC n = h)

/-- R104, with R103's fixed point: MIX at perform and at issue. -/
def Obligations.MixCommandWritesTheTriple : Prop :=
  (∀ s : State, s.busy = true →
    exec .mix s = .next { s with
      res0 := ⟨(mix ⟨s.arg0.value, s.arg1.value, s.arg2.value⟩).a, true⟩
      res1 := ⟨(mix ⟨s.arg0.value, s.arg1.value, s.arg2.value⟩).b, true⟩
      res2 := ⟨(mix ⟨s.arg0.value, s.arg1.value, s.arg2.value⟩).c, true⟩
      status := 0x00000002
      acc := none }) ∧
  (∀ s : State, s.busy = false →
    (s.arg0.written = true ∧ s.arg1.written = true ∧ s.arg2.written = true →
      exec .mix s = .next { s with lop := 0x01, status := 0x00000001 }) ∧
    (¬(s.arg0.written = true ∧ s.arg1.written = true ∧ s.arg2.written = true) → exec .mix s = .fault .uninitReg)) ∧
  encode .mix = 0x00000001 ∧ mix ⟨0, 0, 0⟩ = ⟨0, 0, 0⟩ ∧ mix ⟨1, 0, 0⟩ = ⟨0xfda0dfc7, 0x790420aa, 0x8ec212aa⟩

/-- R120: a full chunk adds its three little-endian words to a, b, c and mixes; the loop goes on with the rest of the
key. -/
def Obligations.ChunkAddsThreeWordsAndMixes : Prop :=
  ∀ (m : Nat) (k0 k1 k2 k3 k4 k5 k6 k7 k8 k9 k10 k11 : Byte) (rest : List Byte) (h : HashState),
    chunkLoop (m + 1) (k0 :: k1 :: k2 :: k3 :: k4 :: k5 :: k6 :: k7 :: k8 :: k9 :: k10 :: k11 :: rest) h =
      chunkLoop m rest (mix
        ⟨h.a + (k0.setWidth 32 + (k1.setWidth 32 <<< 8) + (k2.setWidth 32 <<< 16) + (k3.setWidth 32 <<< 24)),
         h.b + (k4.setWidth 32 + (k5.setWidth 32 <<< 8) + (k6.setWidth 32 <<< 16) + (k7.setWidth 32 <<< 24)),
         h.c + (k8.setWidth 32 + (k9.setWidth 32 <<< 8) + (k10.setWidth 32 <<< 16) + (k11.setWidth 32 <<< 24))⟩)

/-- R122: where a tail of at most eleven bytes goes: bytes 0 to 3 to a, 4 to 7 to b, 8 to 10 to c shifted by 8, 16 and 24,
each once. -/
def Obligations.TailBytesGoWhereTheTableSays : Prop :=
  ∀ (t : List Byte) (h : HashState), t.length ≤ 11 →
    foldTail t.length t h =
      (let z : Nat → Word := fun p => (t.getD p 0).setWidth 32
       ⟨h.a + (z 0 + (z 1 <<< 8) + (z 2 <<< 16) + (z 3 <<< 24)),
        h.b + (z 4 + (z 5 <<< 8) + (z 6 <<< 16) + (z 7 <<< 24)),
        h.c + ((z 8 <<< 8) + (z 9 <<< 16) + (z 10 <<< 24))⟩)

/-- R120, R123, R124: a key shorter than a chunk, the empty one included: the TOTAL length and the tail are added, and one
`Mix` is run. -/
def Obligations.ShortKeyHashIsOneMix : Prop :=
  ∀ (k : List Byte) (seed : Word), k.length ≤ 11 →
    hashBytes k (BitVec.ofNat 32 k.length) seed =
      (mix (foldTail k.length k ⟨0x9e3779b9, 0x9e3779b9, seed + BitVec.ofNat 32 k.length⟩)).c ∧
    hashBytes [] 0 seed = (mix ⟨0x9e3779b9, 0x9e3779b9, seed⟩).c

/-- R123, with R120 and R124: the byte path for every length. The full chunks are absorbed, the TOTAL length goes to c, the
tail is folded in, and one final `Mix` is run. -/
def Obligations.ByteHashAddsTheTotalLength : Prop :=
  (∀ (k : List Byte) (h : HashState), chunkLoop 0 k h = (h, k)) ∧
  ∀ (k : List Byte) (seed : Word), k.length < 2 ^ 32 →
    let r := (chunkLoop (k.length / 12) k ⟨0x9e3779b9, 0x9e3779b9, seed⟩).1
    hashBytes k (BitVec.ofNat 32 k.length) seed =
      (mix (foldTail (k.length % 12) (k.drop (12 * (k.length / 12)))
        ⟨r.a, r.b, r.c + BitVec.ofNat 32 k.length⟩)).c

/-- R126: the byte path's equalities. -/
def Obligations.BytePathEqualities : Prop :=
  (∀ s : Word, hashBytes [0x00] 1 s = hashBytes [] 0 (s + 1)) ∧
  (∀ (n : Nat) (s : Word), n ≤ 11 →
    hashBytes (List.replicate n 0x00) (BitVec.ofNat 32 n) s = hashBytes [] 0 (s + BitVec.ofNat 32 n)) ∧
  (∀ (p : Nat) (h : HashState), addTailByte p 0x00 h = h) ∧
  (∀ s : Word, hashBytes [] 0 s = hash3 0 0 0 s)

/-- R125: HASHB at perform, on a key whose bytes are written and on one that has an unwritten byte, and at issue, with the
exact sum of the bounds check. -/
def Obligations.HashbHashesTheKeyBytes : Prop :=
  (∀ (s : State) (k : List Byte), s.busy = true → k.length = s.len.value.toNat →
    (∀ j (h : j < k.length), s.keymem.read (s.kbase.value.toNat + j) = some k[j]) →
    exec .hashb s = .next { s with
      res0 := ⟨hashBytes k s.len.value s.seed, true⟩
      status := 0x00000002
      acc := none }) ∧
  (∀ s : State, s.busy = true → (∃ j < s.len.value.toNat, s.keymem.read (s.kbase.value.toNat + j) = none) →
    exec .hashb s = .fault .uninitKey) ∧
  (∀ s : State, s.busy = false →
    (s.len.written = true ∧ s.kbase.written = true → s.kbase.value.toNat + s.len.value.toNat ≤ s.cfg.keyBytes →
      exec .hashb s = .next { s with lop := 0x02, status := 0x00000001 }) ∧
    (s.len.written = true ∧ s.kbase.written = true → s.cfg.keyBytes < s.kbase.value.toNat + s.len.value.toNat →
      exec .hashb s = .next { s with status := 0x00000036 }) ∧
    (¬(s.len.written = true ∧ s.kbase.written = true) → exec .hashb s = .fault .uninitReg)) ∧
  (∀ w : Word, w.toNat % 2 ^ 8 = 0x02 → decodeWord w = .ok .hashb ∨
    w.toNat / 2 ^ 8 ≠ 0 ∧ decodeWord w = .error .reservedBits) ∧
  (∀ seed : Word, hashBytes [] 0 seed = (mix ⟨0x9e3779b9, 0x9e3779b9, seed⟩).c) ∧
  encode .hashb = 0x00000002 ∧ hashBytes [0x61, 0x62, 0x63] 3 0 = 0x251e4793

/-- R143: HASHW at perform and at issue, KEY_ALIGN before KEY_BOUNDS, with the exact product and sum. -/
def Obligations.HashwHashesTheKeyWords : Prop :=
  (∀ (s : State) (k : List Word), s.busy = true → k.length = s.len.value.toNat →
    (∀ j (h : j < k.length), ∀ i < 4,
      s.keymem.read (s.kbase.value.toNat + 4 * j + i) = some (k[j].extractLsb' (8 * i) 8)) →
    exec .hashw s = .next { s with
      res0 := ⟨hashWords k s.len.value s.seed, true⟩
      status := 0x00000002
      acc := none }) ∧
  (∀ s : State, s.busy = true → (∃ j < 4 * s.len.value.toNat, s.keymem.read (s.kbase.value.toNat + j) = none) →
    exec .hashw s = .fault .uninitKey) ∧
  (∀ s : State, s.busy = false →
    (s.len.written = true ∧ s.kbase.written = true → s.kbase.value.toNat % 4 ≠ 0 →
      exec .hashw s = .next { s with status := 0x00000046 }) ∧
    (s.len.written = true ∧ s.kbase.written = true → s.kbase.value.toNat % 4 = 0 →
      s.cfg.keyBytes < s.kbase.value.toNat + 4 * s.len.value.toNat →
      exec .hashw s = .next { s with status := 0x00000036 }) ∧
    (s.len.written = true ∧ s.kbase.written = true → s.kbase.value.toNat % 4 = 0 →
      s.kbase.value.toNat + 4 * s.len.value.toNat ≤ s.cfg.keyBytes →
      exec .hashw s = .next { s with lop := 0x03, status := 0x00000001 }) ∧
    (¬(s.len.written = true ∧ s.kbase.written = true) → exec .hashw s = .fault .uninitReg)) ∧
  (∀ seed : Word, hashWords [] 0 seed = (mix ⟨0x9e3779b9, 0x9e3779b9, seed⟩).c) ∧
  encode .hashw = 0x00000003 ∧ hashWords [1, 2, 3] 3 0 = 0x23a7138f

/-- R140, R141, R142: a full group adds its words to a, b, c and mixes; the length term is `L * 4` as a u32; the tail of
one or two words goes to a and b. -/
def Obligations.WordGroupsTailAndLengthTerm : Prop :=
  (∀ (m : Nat) (w0 w1 w2 : Word) (rest : List Word) (h : HashState),
    groupLoop (m + 1) (w0 :: w1 :: w2 :: rest) h = groupLoop m rest (mix ⟨h.a + w0, h.b + w1, h.c + w2⟩)) ∧
  (∀ seed : Word, hashWords [] 0 seed = (mix ⟨0x9e3779b9, 0x9e3779b9, seed⟩).c) ∧
  (∀ w0 seed : Word, hashWords [w0] 1 seed = (mix ⟨0x9e3779b9 + w0, 0x9e3779b9, seed + 4⟩).c) ∧
  (∀ w0 w1 seed : Word, hashWords [w0, w1] 2 seed = (mix ⟨0x9e3779b9 + w0, 0x9e3779b9 + w1, seed + 8⟩).c)

/-- R141, with R140 and R142: the word path for every length. The full groups are absorbed, four times the TOTAL word count
goes to c as a u32 product, the tail words to a and b, and one final `Mix` is run. Where the issue check of HASHW passes,
the product does not wrap. -/
def Obligations.WordHashAddsFourTimesTheTotalCount : Prop :=
  (∀ (k : List Word) (h : HashState), groupLoop 0 k h = (h, k)) ∧
  (∀ (k : List Word) (len seed : Word), k.length = len.toNat →
    let r := (groupLoop (k.length / 3) k ⟨0x9e3779b9, 0x9e3779b9, seed⟩).1
    let tail := k.drop (3 * (k.length / 3))
    hashWords k len seed = (mix ⟨r.a + tail.getD 0 0, r.b + tail.getD 1 0, r.c + len * 4⟩).c) ∧
  (∀ s : State, s.cfg.wf = true → s.kbase.value.toNat + 4 * s.len.value.toNat ≤ s.cfg.keyBytes →
    (s.len.value * 4).toNat = 4 * s.len.value.toNat)

/-- R145: the word path equals the byte path over the same bytes in little-endian order; and through the key buffer, HASHW
and HASHB over the same bytes of KEYMEM write the same RES0 when HASHB's LEN is four times HASHW's. -/
def Obligations.WordPathEqualsBytePath : Prop :=
  (∀ (w : List Word) (s : Word), w.length < 2 ^ 30 →
    ∃ bytes : List Byte, bytes.length = 4 * w.length ∧
      (∀ j (hj : j < w.length), ∀ i < 4, bytes[4 * j + i]? = some (w[j].extractLsb' (8 * i) 8)) ∧
      hashWords w (BitVec.ofNat 32 w.length) s = hashBytes bytes (BitVec.ofNat 32 (4 * w.length)) s) ∧
  (∀ s t : State, s.busy = true → s.len.value.toNat < 2 ^ 30 → exec .hashw s = .next t →
    ∃ u, exec .hashb { s with len := ⟨s.len.value * 4, true⟩ } = .next u ∧ u.res0 = t.res0)

/-- R162, with R160 and R161: HASH3 at perform: GOLDEN to a and b, the seed to c, one `Mix`, no length term; and at
issue. -/
def Obligations.Hash3IsOneMixWithoutLength : Prop :=
  (∀ s : State, s.busy = true →
    exec .hash3 s = .next { s with
      res0 := ⟨(mix ⟨s.arg0.value + 0x9e3779b9, s.arg1.value + 0x9e3779b9, s.arg2.value + s.seed⟩).c, true⟩
      status := 0x00000002
      acc := none }) ∧
  (∀ s : State, s.busy = false →
    (s.arg0.written = true ∧ s.arg1.written = true ∧ s.arg2.written = true →
      exec .hash3 s = .next { s with lop := 0x04, status := 0x00000001 }) ∧
    (¬(s.arg0.written = true ∧ s.arg1.written = true ∧ s.arg2.written = true) → exec .hash3 s = .fault .uninitReg)) ∧
  encode .hash3 = 0x00000004 ∧ (∀ a b c s : Word, hash3 a b c s = hash3 a b (c + s) 0) ∧
  hash3 1 2 3 0 = 0x17e8bdc2

/-- R163: HASH2, whose third word is 0: ARG2 is not read and may be unwritten. -/
def Obligations.Hash2SetsTheThirdWordToZero : Prop :=
  (∀ s : State, s.busy = true →
    exec .hash2 s = .next { s with
      res0 := ⟨hash3 s.arg0.value s.arg1.value 0 s.seed, true⟩
      status := 0x00000002
      acc := none }) ∧
  (∀ s : State, s.busy = false →
    (s.arg0.written = true ∧ s.arg1.written = true →
      exec .hash2 s = .next { s with lop := 0x05, status := 0x00000001 }) ∧
    (¬(s.arg0.written = true ∧ s.arg1.written = true) → exec .hash2 s = .fault .uninitReg)) ∧
  encode .hash2 = 0x00000005 ∧ hash3 0x0A000001 0 0 0 = 0x61e5290c

/-- R164: HASH1, whose second and third words are 0: ARG1 and ARG2 are not read. -/
def Obligations.Hash1SetsTwoWordsToZero : Prop :=
  (∀ s : State, s.busy = true →
    exec .hash1 s = .next { s with
      res0 := ⟨hash3 s.arg0.value 0 0 s.seed, true⟩
      status := 0x00000002
      acc := none }) ∧
  (∀ s : State, s.busy = false →
    (s.arg0.written = true → exec .hash1 s = .next { s with lop := 0x06, status := 0x00000001 }) ∧
    (s.arg0.written = false → exec .hash1 s = .fault .uninitReg)) ∧
  encode .hash1 = 0x00000006 ∧ (∀ s : Word, hash3 0 0 0 s = hashBytes [] 0 s) ∧ hash3 5 0 0 7 = 0x6df682b0

/-- R165, R164: with the unread words zero the three fixed paths write the same RES0; the fast path and the word path
differ on the words (1, 2, 3). -/
def Obligations.FixedPathsAgreeOnZeroWords : Prop :=
  (∀ s : State, s.busy = true → s.arg1.value = 0 → s.arg2.value = 0 →
    ∃ t1 t2 t3, exec .hash1 s = .next t1 ∧ exec .hash2 s = .next t2 ∧ exec .hash3 s = .next t3 ∧
      t2.res0 = t3.res0 ∧ t1.res0 = t2.res0) ∧
  hash3 1 2 3 0 = 0x17e8bdc2 ∧ hashWords [1, 2, 3] 3 0 = 0x23a7138f

/-- R180, R181: the widths of MapInto: the pool size and the product are exact, the upper half of the product is below the
pool size, and the last sum does not wrap. -/
def Obligations.MapIntoWidthBounds : Prop :=
  ∀ h lo hi : Word, lo.toNat ≤ hi.toNat →
    (poolSize lo hi).toNat = hi.toNat - lo.toNat + 1 ∧ 1 ≤ (poolSize lo hi).toNat ∧ (poolSize lo hi).toNat ≤ 2 ^ 32 ∧
    h.toNat * (poolSize lo hi).toNat < 2 ^ 64 ∧
    (scaledHash h (poolSize lo hi)).toNat = h.toNat * (poolSize lo hi).toNat / 2 ^ 32 ∧
    h.toNat * (poolSize lo hi).toNat / 2 ^ 32 ≤ (poolSize lo hi).toNat - 1 ∧
    (mapInto h lo hi).toNat = lo.toNat + h.toNat * (poolSize lo hi).toNat / 2 ^ 32

/-- R183: containment, degenerate pool, full range, monotone. -/
def Obligations.MapIntoStaysInThePool : Prop :=
  ∀ lo hi : Word, lo.toNat ≤ hi.toNat →
    (∀ h, lo.toNat ≤ (mapInto h lo hi).toNat ∧ (mapInto h lo hi).toNat ≤ hi.toNat) ∧
    (∀ h x, mapInto h x x = x) ∧
    (∀ h, mapInto h 0 0xFFFFFFFF = h) ∧
    (∀ h h' : Word, h.toNat ≤ h'.toNat → (mapInto h lo hi).toNat ≤ (mapInto h' lo hi).toNat) ∧
    mapInto 0 lo hi = lo ∧ mapInto 0xFFFFFFFF lo hi = hi

/-- R183: the balance of the mapping over all 2^32 hash values: the count of every pool member, and that the counts of any
two differ by at most 1. -/
def Obligations.MapIntoIsBalanced : Prop :=
  ∀ lo hi : Word, lo.toNat ≤ hi.toNat →
    let p := hi.toNat - lo.toNat + 1
    let ceilDiv : Nat → Nat := fun x => (x + p - 1) / p
    let count : Nat → Nat := fun j =>
      ((Finset.range (2 ^ 32)).filter fun h => (mapInto (BitVec.ofNat 32 h) lo hi).toNat = lo.toNat + j).card
    (∀ j < p, count j = ceilDiv ((j + 1) * 2 ^ 32) - ceilDiv (j * 2 ^ 32)) ∧
    (∀ j < p, ∀ k < p, count j ≤ count k + 1)

/-- R184: MAPR at perform and at issue, the comparison unsigned. -/
def Obligations.MaprMapsTheHashIntoThePool : Prop :=
  (∀ s : State, s.busy = true → s.rmin.value.toNat ≤ s.rmax.value.toNat →
    exec .mapr s = .next { s with
      res0 := ⟨mapInto s.arg0.value s.rmin.value s.rmax.value, true⟩
      status := 0x00000002
      acc := none }) ∧
  (∀ s : State, s.busy = false →
    (s.arg0.written = true ∧ s.rmin.written = true ∧ s.rmax.written = true →
      s.rmin.value.toNat ≤ s.rmax.value.toNat → exec .mapr s = .next { s with lop := 0x07, status := 0x00000001 }) ∧
    (s.arg0.written = true ∧ s.rmin.written = true ∧ s.rmax.written = true →
      s.rmax.value.toNat < s.rmin.value.toNat → exec .mapr s = .next { s with status := 0x00000026 }) ∧
    (¬(s.arg0.written = true ∧ s.rmin.written = true ∧ s.rmax.written = true) → exec .mapr s = .fault .uninitReg)) ∧
  (∀ h x : Word, mapInto h x x = x) ∧ (∀ h : Word, mapInto h 0 0xFFFFFFFF = h) ∧
  encode .mapr = 0x00000007 ∧ mapInto 0x40000000 0x0A000000 0x0A000003 = 0x0A000001

/-- R185: PMAP at perform and at issue. -/
def Obligations.PmapHashesTheAddressThenMaps : Prop :=
  (∀ s : State, s.busy = true → s.rmin.value.toNat ≤ s.rmax.value.toNat →
    exec .pmap s = .next { s with
      res0 := ⟨mapInto (hash3 s.arg0.value 0 0 s.seed) s.rmin.value s.rmax.value, true⟩
      res1 := ⟨hash3 s.arg0.value 0 0 s.seed, true⟩
      status := 0x00000002
      acc := none }) ∧
  (∀ s : State, s.busy = false →
    (s.arg0.written = true ∧ s.rmin.written = true ∧ s.rmax.written = true →
      s.rmin.value.toNat ≤ s.rmax.value.toNat → exec .pmap s = .next { s with lop := 0x08, status := 0x00000001 }) ∧
    (s.arg0.written = true ∧ s.rmin.written = true ∧ s.rmax.written = true →
      s.rmax.value.toNat < s.rmin.value.toNat → exec .pmap s = .next { s with status := 0x00000026 }) ∧
    (¬(s.arg0.written = true ∧ s.rmin.written = true ∧ s.rmax.written = true) → exec .pmap s = .fault .uninitReg)) ∧
  (∀ h x : Word, mapInto h x x = x) ∧
  encode .pmap = 0x00000008 ∧ hash3 0x0A000001 0 0 0 = 0x61e5290c ∧ mapInto 0x61e5290c 0x0A000000 0x0A000003 = 0x0A000001

/-- R186: PMAP equals HASH2 followed by MAPR on the hash. With RMIN > RMAX, PMAP is rejected at once, while HASH2 is
accepted and its perform step writes RES0, and only MAPR is then rejected. -/
def Obligations.PmapEqualsHash2ThenMapr : Prop :=
  (∀ s : State, s.busy = true → s.arg1.value = 0 → s.rmin.value.toNat ≤ s.rmax.value.toNat →
    ∃ t u r, exec .hash2 s = .next t ∧ exec .pmap s = .next u ∧
      exec .mapr { t with arg0 := t.res0, status := 0x00000001 } = .next r ∧
      r.res0 = u.res0 ∧ u.res1 = t.res0) ∧
  (∀ s : State, s.busy = false → s.arg0.written = true → s.arg1.written = true → s.rmin.written = true →
    s.rmax.written = true → s.rmax.value.toNat < s.rmin.value.toNat →
    exec .pmap s = .next { s with status := 0x00000026 } ∧
    ∃ t u, exec .hash2 s = .next t ∧ exec .hash2 t = .next u ∧
      u.res0 = ⟨hash3 s.arg0.value s.arg1.value 0 s.seed, true⟩ ∧
      exec .mapr { u with arg0 := u.res0 } = .next { u with arg0 := u.res0, status := 0x00000026 })

/-- R85, R201: the frame of every perform step. Only the registers of the result set and STATUS change; every byte of the
key buffer, LOP and the host's side are as before; the result set's flags are set. -/
def Obligations.PerformWritesOnlyItsResultSet : Prop :=
  ∀ (i : Instr) (s t : State), s.busy = true → exec i s = .next t →
    (∀ r, r ∉ resultSet i → r ≠ .status → t.regVal r = s.regVal r ∧ t.regWritten r = s.regWritten r) ∧
    (∀ r ∈ resultSet i, t.regWritten r = true) ∧
    (resultSet .nop = [] ∧ resultSet .mix = [.res0, .res1, .res2] ∧ resultSet .hashb = [.res0] ∧
      resultSet .hashw = [.res0] ∧ resultSet .hash3 = [.res0] ∧ resultSet .hash2 = [.res0] ∧
      resultSet .hash1 = [.res0] ∧ resultSet .mapr = [.res0] ∧ resultSet .pmap = [.res0, .res1]) ∧
    t.status = 0x00000002 ∧ t.acc = none ∧ (∀ a, t.keymem.read a = s.keymem.read a) ∧ t.keymem = s.keymem ∧
    t.lop = s.lop ∧ t.fault = s.fault ∧ t.cfg = s.cfg ∧ t.program = s.program ∧ t.reads = s.reads ∧
    t.schedule = s.schedule

/-- R15, R84: what a command writes to its result set depends on its operand set alone: the registers R84 lists, and for
HASHB and HASHW the key bytes they cover. -/
def Obligations.ResultsDependOnOperandSetOnly : Prop :=
  ∀ (i : Instr) (s t s' : State), s.busy = true → t.busy = true →
    (∀ r ∈ operandSet i, s.regVal r = t.regVal r) →
    (i = .hashb → ∀ j < s.len.value.toNat,
      s.keymem.read (s.kbase.value.toNat + j) = t.keymem.read (s.kbase.value.toNat + j)) →
    (i = .hashw → ∀ j < 4 * s.len.value.toNat,
      s.keymem.read (s.kbase.value.toNat + j) = t.keymem.read (s.kbase.value.toNat + j)) →
    exec i s = .next s' →
    ∃ t', exec i t = .next t' ∧ ∀ r ∈ resultSet i, s'.regVal r = t'.regVal r

/-! ## Steps -/

/-- R201: the Engine's step runs the command its latched opcode decodes to. -/
def Obligations.EngineStepRunsTheLatchedCommand : Prop :=
  ∀ (s : State) (i : Instr) (rest : List Turn), s.fault = none → s.busy = true → decodeOpcode s.lop = .ok i →
    (s.schedule = .engine :: rest → step s = exec i { s with schedule := rest }) ∧
    (s.schedule = [] → step s = exec i s)

/-- R53, R200: the Host's step that writes a command word to CMD issues that command, inside the write. -/
def Obligations.HostStepIssuesTheWrittenCommand : Prop :=
  ∀ (s : State) (i : Instr) (w : Word) (ops : List HostOp) (rest : List Turn), s.fault = none → s.busy = false →
    decodeWord w = .ok i → s.program = .write 0x000 4 w :: ops →
    (s.schedule = .host :: rest → step s = exec i { s with program := ops, schedule := rest }) ∧
    (s.schedule = [] → step s = exec i { s with program := ops })

/-- The placed word is the next one run: a command is performed, any other word is rejected at issue (assumption 4). -/
def Obligations.FetchedWordIsTheNextOneRun : Prop :=
  ∀ (s : State) (w : Nat), w < 2 ^ 32 →
    (∀ i, decodeTableWord 32 w = some i →
      step (s.withFetchWord 32 w) = exec i { s with lop := opcodeOf i, status := 0x00000001, fault := none }) ∧
    (decodeTableWord 32 w = none →
      step (s.withFetchWord 32 w) = .next { s with status := 0x00000016, fault := none })

/-- R201, R251: Perform is enabled exactly when BUSY = 1: an idle Engine makes no move. -/
def Obligations.IdleEngineMakesNoMove : Prop :=
  ∀ s : State, s.busy = false → engineTurn s = .next s

/-- R40: FAULT is none at reset; the first model fault sets it and changes nothing else; once it is set no step is taken,
so none clears it. -/
def Obligations.FaultMarkStopsTheRun : Prop :=
  State.reset.fault = none ∧
  (∀ (s : State) (r : Fault), s.fault = some r → step s = .fault r) ∧
  (∀ (s : State) (r : Fault), s.fault = none → step s = .fault r →
    s.record (step s) = { s with fault := some r } ∧ step (s.record (step s)) = .fault r) ∧
  (∀ s t : State, step s = .next t → s.fault = none)

/-- R204: a busy Engine performs, or the block is reset, or the run faults, within the turns the schedule still holds and
one more. -/
def Obligations.BusyEndsWithinTheSchedule : Prop :=
  ∀ s : State, s.Inv → s.busy = true →
    ∃ k ≤ s.schedule.length + 1,
      (∃ t, runSteps k s = .next t ∧ t.busy = false) ∨ (∃ r, runSteps k s = .fault r)

/-- R24: BUSY is set only inside a host write of a command to CMD, whose opcode LOP then holds, and cleared only by the
Engine's step or by reset: no move of the Host clears it. -/
def Obligations.BusyChangesOnlyByIssuePerformReset : Prop :=
  ∀ s t : State, step s = .next t →
    (s.busy = false → t.busy = true →
      (nextTurn s).1 = .host ∧ ∃ w ops i, s.program = .write 0x000 4 w :: ops ∧ decodeWord w = .ok i ∧
        t.lop = opcodeOf i ∧ t.status = 0x00000001) ∧
    (s.busy = true → t.busy = false → (nextTurn s).1 = .engine ∨ (nextTurn s).1 = .reset)

/-- R35: KEYMEM changes only by the Host's own turn with a write into the key window, or by reset: no command writes it. -/
def Obligations.NoCommandWritesTheKeyBuffer : Prop :=
  ∀ s t : State, step s = .next t → t.keymem ≠ s.keymem →
    ((nextTurn s).1 = .host ∧
      ∃ off n v ops, s.program = .write off n v :: ops ∧ 0x1000 ≤ off ∧ off < 0x1000 + s.cfg.keyBytes) ∨
    ((nextTurn s).1 = .reset ∧ t.keymem = [])

/-- R88, R89: the transactions of the host-program statements, and of `CMD <word>` as the programs of 95_test_vectors.md
write it. `WAIT` is one operation of the model's (log entry 7), whose reads HostReadChangesNothing states. -/
def Obligations.HostStatementsExpand : Prop :=
  (∀ r v, HostStmt.expand (.wr r v) = [.write r.offset 4 v]) ∧
  (∀ r, HostStmt.expand (.rd r) = [.read r.offset 4]) ∧
  (∀ k (b : BitVec 8), HostStmt.expand (.wk8 k b) = [.write (0x1000 + k) 1 (b.setWidth 32)]) ∧
  (∀ k (b : BitVec 16), HostStmt.expand (.wk16 k b) = [.write (0x1000 + k) 2 (b.setWidth 32)]) ∧
  (∀ k b, HostStmt.expand (.wk32 k b) = [.write (0x1000 + k) 4 b]) ∧
  (∀ k, HostStmt.expand (.rk8 k) = [.read (0x1000 + k) 1] ∧ HostStmt.expand (.rk16 k) = [.read (0x1000 + k) 2] ∧
    HostStmt.expand (.rk32 k) = [.read (0x1000 + k) 4]) ∧
  (∀ i, HostStmt.expand (.cmd i) = [.write 0x000 4 (encode i)] ∧
    HostStmt.expand (.run i) = HostStmt.expand (.cmd i) ++ HostStmt.expand .wait) ∧
  (∀ w, HostStmt.expand (.cmdWord w) = [.write 0x000 4 w]) ∧
  HostStmt.expand .wait = [.wait] ∧
  (∀ k, HostStmt.expand (.ldkey k []) = [] ∧ HostStmt.expand (.ldwords k []) = []) ∧
  (∀ k b bs, HostStmt.expand (.ldkey k (b :: bs)) =
    HostStmt.expand (.wk8 k b) ++ HostStmt.expand (.ldkey (k + 1) bs)) ∧
  (∀ k w ws, HostStmt.expand (.ldwords k (w :: ws)) =
    HostStmt.expand (.wk32 k w) ++ HostStmt.expand (.ldwords (k + 4) ws))
end

