-- ==== Sys2Proof/Tests/Slice0.lean ====
section
/-! SUPPORT. The model's own tests: the well-formedness smoke, the words of the opcode table written out bit by bit, at most
two one-step tests per command with the results of 95_test_vectors.md, and for every obligation with hypotheses a concrete
state that meets them. -/

namespace Sys2Proof.Tests

open Sys2Proof Sys2Proof.Machine

/-! ## Helpers -/

/-- The next state of an outcome. -/
def nextOf (o : Result) : Option State :=
  match o with
  | .next t => some t
  | .fault _ => none
  | .refused _ => none

/-- The fault of an outcome. -/
def faultOf (o : Result) : Option Fault :=
  match o with
  | .next _ => none
  | .fault r => some r
  | .refused _ => none

/-- The refusal of an outcome. -/
def refusalOf (o : Result) : Option Refusal :=
  match o with
  | .next _ => none
  | .fault _ => none
  | .refused r => some r

/-- The value of a host read. -/
def valueOf (o : Except Fault Word) : Option Word := o.toOption

/-- The fault of a host read. -/
def readFault (o : Except Fault Word) : Option Fault :=
  match o with
  | .ok _ => none
  | .error r => some r

/-- An idle block, every operand register written: "abc" at key byte 0, pool A of 95_test_vectors.md. -/
def idle : State :=
  { State.reset with
    seed := 0, len := ⟨3, true⟩, kbase := ⟨0, true⟩, rmin := ⟨0x0A000000, true⟩, rmax := ⟨0x0A000003, true⟩
    arg0 := ⟨1, true⟩, arg1 := ⟨2, true⟩, arg2 := ⟨3, true⟩
    keymem := [(0, 0x61), (1, 0x62), (2, 0x63)] }

/-- The same block, busy with the command i. -/
def busyWith (i : Instr) : State := idle.accept i

/-- The words 1, 2, 3 at key bytes 0 to 11. -/
def wordKey : Memory := Memory.writeBytes [] 0 [1, 0, 0, 0, 2, 0, 0, 0, 3, 0, 0, 0]

/-! ## Well-formedness: an ill-formed term for each check, refused -/

theorem test_wf_keyBytes_too_small : Config.wf { keyBytes := 0, nheBase := 0 } = false := by decide
theorem test_wf_keyBytes_too_large : Config.wf { keyBytes := 0xF004, nheBase := 0 } = false := by decide
theorem test_wf_keyBytes_not_words : Config.wf { keyBytes := 6, nheBase := 0 } = false := by decide
theorem test_wf_config_reference : Config.reference.wf = true := by decide
theorem test_wf_write_outside_window : HostOp.wf (.write 0x10000 1 0) = false := by decide
theorem test_wf_write_width : HostOp.wf (.write 0x1000 3 0) = false := by decide
theorem test_wf_write_misaligned : HostOp.wf (.write 0x1002 4 0) = false := by decide
theorem test_wf_write_value_too_wide : HostOp.wf (.write 0x1000 1 0x100) = false := by decide
theorem test_wf_read_outside_window : HostOp.wf (.read 0x10000 4) = false := by decide
theorem test_wf_read_width : HostOp.wf (.read 0x1000 8) = false := by decide
theorem test_wf_read_misaligned : HostOp.wf (.read 0x1001 2) = false := by decide
theorem test_wf_stmt_misaligned :
    HostStmt.wf (.wk16 1 0) = false ∧ HostStmt.wf (.rk16 3) = false ∧ HostStmt.wf (.wk32 2 0) = false ∧
      HostStmt.wf (.rk32 6) = false ∧ HostStmt.wf (.ldwords 0x12 [1]) = false := by decide
theorem test_wf_accepts :
    HostOp.wf (.write 0x1002 2 0xFFFF) = true ∧ HostOp.wf (.read 0x004 4) = true ∧ HostOp.wf .wait = true ∧
      HostStmt.wf (.ldwords 0x10 [1, 2, 3]) = true ∧ Instr.wf .pmap = true := by decide

/-! ## Decode: each command's word, RSVD in bits 31:8 and OPCODE in bits 7:0 (R80, R82) -/

theorem test_decode_nop : decodeTableWord 32 0b000000000000000000000000_00000000 = some .nop := by decide
theorem test_decode_mix : decodeTableWord 32 0b000000000000000000000000_00000001 = some .mix := by decide
theorem test_decode_hashb : decodeTableWord 32 0b000000000000000000000000_00000010 = some .hashb := by decide
theorem test_decode_hashw : decodeTableWord 32 0b000000000000000000000000_00000011 = some .hashw := by decide
theorem test_decode_hash3 : decodeTableWord 32 0b000000000000000000000000_00000100 = some .hash3 := by decide
theorem test_decode_hash2 : decodeTableWord 32 0b000000000000000000000000_00000101 = some .hash2 := by decide
theorem test_decode_hash1 : decodeTableWord 32 0b000000000000000000000000_00000110 = some .hash1 := by decide
theorem test_decode_mapr : decodeTableWord 32 0b000000000000000000000000_00000111 = some .mapr := by decide
theorem test_decode_pmap : decodeTableWord 32 0b000000000000000000000000_00001000 = some .pmap := by decide

/-- V8.1 to V8.4: reserved words. -/
theorem test_decode_rejects :
    decodeTableWord 32 0x00000009 = none ∧ decodeTableWord 32 0x000000FF = none ∧
      decodeTableWord 32 0x00000102 = none ∧ decodeTableWord 32 0x80000000 = none := by decide

/-! ## One step per command, with the results of 95_test_vectors.md -/

/-- V7.2: NOP clears a rejection. -/
theorem test_nop_clears_status :
    (nextOf (exec .nop { idle with status := 0x26 })).map (·.status) = some 0x00000001 ∧
      (nextOf (exec .nop (busyWith .nop))).map (·.status) = some 0x00000002 := by decide

/-- V1.5. -/
theorem test_mix_vector :
    (nextOf (exec .mix (busyWith .mix))).map (fun t => (t.res0.value, t.res1.value, t.res2.value)) =
      some (0x072c6345, 0x41729d0b, 0xb7b48902) := by decide

/-- V1.8: the top bit, which an arithmetic right shift would spread; V1.9: the inverse. -/
theorem test_mix_top_bit_and_inverse :
    mix ⟨0x80000000, 0, 0⟩ = ⟨0xecf0bf7d, 0xcde4b445, 0xc8e117f5⟩ ∧ unmix ⟨0xfda0dfc7, 0x790420aa, 0x8ec212aa⟩ = ⟨1, 0, 0⟩ := by
  decide

/-- V2.9. -/
theorem test_hashb_vector : (nextOf (exec .hashb (busyWith .hashb))).map (·.res0.value) = some 0x251e4793 := by decide

/-- Section 2.2: K1 with LEN 23, a chunk and a tail of 11; V2.14, the tail map and the length term; K2 with LEN 1, a byte of
0x80. -/
theorem test_hashb_chunk_tail_and_high_byte :
    hashBytes [1, 2, 3, 4, 5, 6, 7, 8, 9, 10, 11, 12, 13, 14, 15, 16, 17, 18, 19, 20, 21, 22, 23] 23 0 = 0x7aceac8c ∧
      hashBytesPreFinal [1, 2, 3, 4, 5, 6, 7, 8, 9, 10, 11] 11 0 = ⟨0xa23a7bba, 0xa63e7fbe, 0x0b0a090b⟩ ∧
      hashBytes [0x80] 1 0 = 0xea28b4c0 := by decide

/-- V3.1. -/
theorem test_hashw_vector :
    (nextOf (exec .hashw { busyWith .hashw with keymem := wordKey })).map (·.res0.value) = some 0x23a7138f := by decide

/-- V3.8: a group and a one-word tail. -/
theorem test_hashw_group_and_tail : hashWords [1, 2, 3, 4] 4 0 = 0x2522ab2a := by decide

/-- V4.7. -/
theorem test_hash3_vector : (nextOf (exec .hash3 (busyWith .hash3))).map (·.res0.value) = some 0x17e8bdc2 := by decide

/-- V4.2: the additions wrap. -/
theorem test_hash3_wraps : hash3 0xFFFFFFFF 0xFFFFFFFF 0xFFFFFFFF 0xFFFFFFFF = 0x17f43626 := by decide

/-- V4.11: ARG2 (here 3) is not read, SEED is. -/
theorem test_hash2_vector :
    (nextOf (exec .hash2 { busyWith .hash2 with seed := 3, arg2 := .unwritten })).map (·.res0.value) = some 0x17e8bdc2 := by
  decide

/-- V4.12. -/
theorem test_hash1_vector :
    (nextOf (exec .hash1 { busyWith .hash1 with seed := 7, arg0 := ⟨5, true⟩ })).map (·.res0.value) = some 0x6df682b0 := by
  decide

/-- V5.3. -/
theorem test_mapr_vector :
    (nextOf (exec .mapr { busyWith .mapr with arg0 := ⟨0x40000000, true⟩ })).map (·.res0.value) = some 0x0a000001 := by
  decide

/-- V5.9: the full range, whose pool size does not fit 32 bits. -/
theorem test_mapr_full_range : mapInto 0x12345678 0 0xFFFFFFFF = 0x12345678 := by decide

/-- V6.2. -/
theorem test_pmap_vector :
    (nextOf (exec .pmap { busyWith .pmap with arg0 := ⟨0xC0A80001, true⟩ })).map (fun t => (t.res0.value, t.res1.value)) =
      some (0x0a000002, 0xa305c41a) := by decide

/-- V8.8: PMAP rejected. -/
theorem test_pmap_rejected :
    (nextOf (exec .pmap { idle with rmin := ⟨0x0A000004, true⟩ })).map (fun t => (t.status, t.res1.written)) =
      some (0x00000026, false) := by decide

/-- V8.12 and V8.19: the exact sums of the bounds checks. -/
theorem test_bounds_are_exact :
    issueCheck .hashb { idle with kbase := ⟨0xFFFFFFFF, true⟩, len := ⟨2, true⟩ } = some .keyBounds ∧
      issueCheck .hashw { idle with len := ⟨0x40000001, true⟩ } = some .keyBounds := by decide

/-- V8.17: KEY_ALIGN outranks KEY_BOUNDS. -/
theorem test_align_outranks_bounds :
    issueCheck .hashw { idle with kbase := ⟨2, true⟩, len := ⟨0x10000, true⟩ } = some .keyAlign := by decide

/-- V8.5, V9.2, V9.3: ILLEGAL outranks F_UNINIT_REG, which outranks the bounds check. -/
theorem test_issue_priority :
    (nextOf (issueWord 0x00000009 State.reset)).map (·.status) = some 0x00000016 ∧
      faultOf (issueWord 0x00000001 State.reset) = some .uninitReg ∧
      faultOf (issueWord 0x00000002 { State.reset with kbase := ⟨0, true⟩ }) = some .uninitReg := by decide

/-- V9.4: the perform step of HASHB on an unwritten key byte. -/
theorem test_uninit_key : faultOf (step { busyWith .hashb with keymem := [] }) = some .uninitKey := by decide

/-- V9.5 to V9.12: the host's faults. -/
theorem test_host_faults :
    faultOf (hostWrite 0x01C 4 1 (busyWith .nop)) = some .busyAccess ∧
      readFault (hostRead 0x000 4 (busyWith .nop)) = some .busyAccess ∧
      faultOf (hostWrite 0x028 4 0 idle) = some .roWrite ∧ faultOf (hostWrite 0x034 4 0 idle) = some .unmapped ∧
      readFault (hostRead 0x2000 1 idle) = some .unmapped ∧ readFault (hostRead 0x004 2 idle) = some .badAccess ∧
      faultOf (hostWrite 0x1002 4 0 idle) = some .badAccess := by decide

/-- V9.1, V9.13, and the accesses that do not fault. -/
theorem test_reads_after_reset :
    readFault (hostRead 0x028 4 State.reset) = some .uninitReg ∧ readFault (hostRead 0x1005 1 State.reset) = some .uninitKey ∧
      valueOf (hostRead 0x000 4 State.reset) = some 0 ∧ valueOf (hostRead 0x008 4 State.reset) = some 0 ∧
      valueOf (hostRead 0x004 4 (busyWith .nop)) = some 1 := by decide

/-- Program P4, steps 1 to 5: the byte order of the key window. -/
theorem test_key_window_little_endian :
    wordKey.read 0 = some 1 ∧ wordKey.read 4 = some 2 ∧ wordKey.memRead 2 2 = some 0 ∧ wordKey.memRead 8 4 = some 3 := by
  decide

/-- Platform addresses through the window base. -/
theorem test_window_base :
    Config.windowOffset { keyBytes := 0x1000, nheBase := 0x40000 } 0x41000 = some 0x1000 ∧
      Config.windowOffset { keyBytes := 0x1000, nheBase := 0x40000 } 0x50000 = none := by decide

/-! ## Witnesses: a concrete state that meets the hypotheses of each obligation -/

/-- An idle block, and words on both sides of every bound of the opcode map. -/
theorem witness_DecodeIsExactlyTheOpcodeMap :
    State.reset.busy = false ∧ (decodeWord 0x08).toOption = some .pmap ∧ (decodeWord 0x09).toOption = none ∧
      (decodeWord 0xFF).toOption = none ∧ (decodeWord 0x100).toOption = none := by decide

/-- A busy block, and the first byte and the last word of the key window. -/
theorem witness_ResetLeavesTheResetState :
    (busyWith .hashb).busy = true ∧ 0x1000 < 0x1000 + (busyWith .hashb).platformReset.cfg.keyBytes ∧
      0x1FFC < 0x1000 + (busyWith .hashb).platformReset.cfg.keyBytes ∧ 0x1FFC % 4 = 0 := by decide

/-- A reset while the Engine is busy. -/
theorem witness_ResetTurnResets :
    (busyWith .hashb).fault = none ∧ (busyWith .hashb).busy = true ∧
      ({ busyWith .hashb with schedule := [.reset] } : State).schedule = .reset :: [] ∧
      nextOf (step { busyWith .hashb with schedule := [.reset] }) = some State.reset := by decide

/-- The least and the greatest key buffer. -/
theorem witness_ResetMeetsTheInvariant :
    Config.wf { keyBytes := 4, nheBase := 0 } = true ∧ Config.wf { keyBytes := 0xF000, nheBase := 0 } = true := by decide

/-- An idle host's step, a step of the Engine and a step of the Host, each from a state that keeps the invariant. -/
theorem witness_StepKeepsTheInvariant :
    State.reset.Inv ∧ (nextOf (step State.reset)).isSome = true ∧ (busyWith .pmap).Inv ∧
      (nextOf (step (busyWith .pmap))).isSome = true ∧ ({ idle with program := [.write 0x1003 1 0x64] } : State).Inv ∧
      (nextOf (step { idle with program := [.write 0x1003 1 0x64] })).isSome = true := by decide

/-- States that keep the invariant, idle and busy. -/
theorem witness_StepIsNeverRefused : idle.Inv ∧ (busyWith .mapr).Inv ∧ (busyWith .nop).Inv := by decide

/-- RMIN one above RMAX with either mapping command latched, and the first opcode past the map. -/
theorem witness_RefusedFormsBreakTheInvariant :
    let s : State := { busyWith .mapr with rmin := ⟨4, true⟩, rmax := ⟨3, true⟩ }
    s.busy = true ∧ s.rmax.value.toNat < s.rmin.value.toNat ∧ s.lop = 0x07 ∧ ({ s with lop := 0x08 } : State).lop = 0x08 ∧
      0x08 < ({ s with lop := 0x09 } : State).lop.toNat ∧ refusalOf (exec .mapr s) = some .rangePrecondition ∧
      refusalOf (engineTurn { s with lop := 0x09 }) = some .lopNotAnOpcode := by decide

/-- A state that keeps the invariant at each legal value of STATUS. -/
theorem witness_StatusReadsAreLegal :
    State.reset.Inv ∧ (busyWith .nop).Inv ∧ ({ idle with status := 2 } : State).Inv ∧
      ({ idle with status := 0x16 } : State).Inv ∧ ({ idle with status := 0x26 } : State).Inv ∧
      ({ idle with status := 0x36 } : State).Inv ∧ ({ idle with status := 0x46 } : State).Inv := by decide

/-- Two different states that show the same. -/
theorem witness_UnwrittenContentsNeverRead :
    let t : State := { State.reset with arg0 := ⟨5, false⟩, res2 := ⟨0xFFFFFFFF, false⟩, lop := 0x07 }
    State.reset.Inv ∧ t.Inv ∧ State.reset.visible = t.visible ∧ State.reset ≠ t := by decide

/-- The first and the last read-write register. -/
theorem witness_RegisterWriteStoresAndReadsBack :
    State.reset.busy = false ∧ HostReg.readWrite .seed = true ∧ HostReg.readWrite .arg2 = true := by decide

/-- CMD, a written and an unwritten register, of an idle block. -/
theorem witness_RegisterReadGivesValueOrFaults :
    idle.busy = false ∧ HostReg.arg0 ≠ .cmd ∧ idle.regWritten .arg0 = true ∧ HostReg.res0 ≠ .cmd ∧
      idle.regWritten .res0 = false := by decide

/-- The four read-only registers. -/
theorem witness_ReadOnlyRegisterWriteFaults :
    idle.busy = false ∧ HostReg.status ∈ [HostReg.status, .res0, .res1, .res2] ∧
      HostReg.res2 ∈ [HostReg.status, .res0, .res1, .res2] := by decide

/-- The first byte, the last halfword and the last word of the key window, with the greatest value of each width. -/
theorem witness_KeyWriteStoresLittleEndian :
    (0xFF : Word).toNat < 2 ^ (8 * 1) ∧ (0xFFFF : Word).toNat < 2 ^ (8 * 2) ∧ (0xFFFFFFFF : Word).toNat < 2 ^ (8 * 4) ∧
    idle.busy = false ∧ 0x1000 < 0x1000 + idle.cfg.keyBytes ∧ 0x1FFE < 0x1000 + idle.cfg.keyBytes ∧ 0x1FFE % 2 = 0 ∧
      0x1FFC < 0x1000 + idle.cfg.keyBytes ∧ 0x1FFC % 4 = 0 ∧ ¬0x2000 < 0x1000 + idle.cfg.keyBytes := by decide

/-- A byte write of a value of two bytes at the first key byte, and one at the last. -/
theorem witness_TooWideKeyWriteStoresLowBytes :
    idle.busy = false ∧ 0x1000 < 0x1000 + idle.cfg.keyBytes ∧ 0x1FFF < 0x1000 + idle.cfg.keyBytes ∧ 0x1FFF % 1 = 0 ∧
      (nextOf (hostWrite 0x1FFF 1 0x17A idle)).map (·.keymem.read 0xFFF) = some (some 0x7A) := by decide

/-- The first and the last word of the key window, and the greatest halfword. -/
theorem witness_MixedWidthAccessesAgree :
    (0xFFFF : Word).toNat < 2 ^ 16 ∧
    idle.cfg.wf = true ∧ idle.busy = false ∧ 0x1000 % 4 = 0 ∧ 0x1FFC < 0x1000 + idle.cfg.keyBytes ∧ 0x1FFC % 4 = 0 ∧
      0x1FFE < 0x1000 + idle.cfg.keyBytes ∧ 0x1FFE % 2 = 0 := by decide

/-- Written bytes, and a halfword whose second byte is unwritten. -/
theorem witness_KeyReadGivesBytesOrFaults :
    idle.busy = false ∧ (∀ j < 2, idle.keymem.read (0x1000 - 0x1000 + j) = [0x61, 0x62][j]?) ∧ 0x1002 % 2 = 0 ∧
      ∃ j < 2, idle.keymem.read (0x1002 - 0x1000 + j) = none := by decide

/-- Each clause at its bounds: registers by width and by alignment, the key window by width and by alignment. -/
theorem witness_WrongWidthOrAlignmentFaults :
    idle.busy = false ∧ (0x030 < 0x0034 ∧ (2 ≠ 4)) ∧ (0x033 < 0x0034 ∧ 0x033 % 4 ≠ 0) ∧
      (0x1000 < 0x1000 + idle.cfg.keyBytes ∧ (3 ≠ 1 ∧ 3 ≠ 2 ∧ 3 ≠ 4)) ∧
      (0x1FFF < 0x1000 + idle.cfg.keyBytes ∧ 0x1FFF % 2 ≠ 0) := by decide

/-- The ends of the two unmapped ranges. -/
theorem witness_UnmappedOffsetFaults :
    idle.busy = false ∧ (0x0034 ≤ 0x0034 ∧ 0x0034 < 0x1000) ∧ (0x0034 ≤ 0x0FFF ∧ 0x0FFF < 0x1000) ∧
      0x1000 + idle.cfg.keyBytes ≤ 0x2000 ∧ 0x1000 + idle.cfg.keyBytes ≤ 0xFFFF := by decide

/-- A busy block, and accesses that are not the read of STATUS. -/
theorem witness_BusyAllowsOnlyStatusReads :
    (busyWith .nop).busy = true ∧ ¬(0x004 = 0x004 ∧ 2 = 4) ∧ ¬(0x000 = 0x004 ∧ 4 = 4) := by decide

/-- A read that answers, a read that faults, and a host that waits, on a busy block and on an idle one. -/
theorem witness_HostReadChangesNothing :
    ({ idle with program := [.read 0x01C 4] } : State).program = .read 0x01C 4 :: [] ∧
      valueOf (hostRead 0x01C 4 { idle with program := [.read 0x01C 4] }) = some 1 ∧
      readFault (hostRead 0x028 4 { idle with program := [.read 0x028 4] }) = some .uninitReg ∧
      ({ busyWith .nop with program := [.wait] } : State).program = .wait :: [] ∧ (busyWith .nop).busy = true ∧
      idle.busy = false := by decide

/-- The three endings of an issue. -/
theorem witness_IssueAcceptsOrRejectsPrecisely :
    idle.busy = false ∧ State.reset.busy = false ∧ (nextOf (hostWrite 0x000 4 0x08 idle)).map (·.status) = some 0x01 ∧
      (nextOf (hostWrite 0x000 4 0x09 idle)).map (·.status) = some 0x16 ∧
      faultOf (hostWrite 0x000 4 0x08 State.reset) = some .uninitReg := by decide

/-- NOP, busy and idle, and the first word that NOP's opcode does not make legal. -/
theorem witness_NopPassesThroughIssueAndPerform :
    (busyWith .nop).busy = true ∧ idle.busy = false ∧ (0x100 : Word).toNat % 2 ^ 8 = 0 ∧ (0x100 : Word).toNat / 2 ^ 8 ≠ 0 := by
  decide

/-- MIX, busy, idle with its operands, and idle without one. -/
theorem witness_MixCommandWritesTheTriple :
    (busyWith .mix).busy = true ∧ idle.busy = false ∧
      (idle.arg0.written = true ∧ idle.arg1.written = true ∧ idle.arg2.written = true) ∧
      State.reset.busy = false ∧ State.reset.arg2.written = false := by decide

/-- The empty tail and the longest. -/
theorem witness_TailBytesGoWhereTheTableSays :
    ([] : List Byte).length ≤ 11 ∧ ([1, 2, 3, 4, 5, 6, 7, 8, 9, 10, 11] : List Byte).length ≤ 11 := by decide

/-- The empty key and the longest below a chunk. -/
theorem witness_ShortKeyHashIsOneMix :
    ([] : List Byte).length ≤ 11 ∧ ([1, 2, 3, 4, 5, 6, 7, 8, 9, 10, 11] : List Byte).length ≤ 11 := by decide

/-- The empty key, and K1 of section 2.2 with LEN 13, where the total length is not the tail's. -/
theorem witness_ByteHashAddsTheTotalLength :
    ([] : List Byte).length < 2 ^ 32 ∧ ([1, 2, 3, 4, 5, 6, 7, 8, 9, 10, 11, 12, 13] : List Byte).length < 2 ^ 32 ∧
      hashBytes [1, 2, 3, 4, 5, 6, 7, 8, 9, 10, 11, 12, 13] 13 0 = 0x41fa9c2d := by decide

/-- No zero byte and eleven. -/
theorem witness_BytePathEqualities : 0 ≤ 11 ∧ 11 ≤ 11 := by decide

/-- HASHB: a written key, a key with an unwritten byte, a key that ends with the buffer, one that ends past it, and an
unwritten register. -/
theorem witness_HashbHashesTheKeyBytes :
    let atEnd : State := { idle with kbase := ⟨0xFFD, true⟩ }
    let past : State := { idle with kbase := ⟨0xFFE, true⟩ }
    (busyWith .hashb).busy = true ∧ ([0x61, 0x62, 0x63] : List Byte).length = (busyWith .hashb).len.value.toNat ∧
      (∀ j < 3, (busyWith .hashb).keymem.read ((busyWith .hashb).kbase.value.toNat + j) = [0x61, 0x62, 0x63][j]?) ∧
      ({ busyWith .hashb with len := ⟨4, true⟩ } : State).busy = true ∧
      (∃ j < 4, ({ busyWith .hashb with len := ⟨4, true⟩ } : State).keymem.read (0 + j) = none) ∧ atEnd.busy = false ∧
      (atEnd.len.written = true ∧ atEnd.kbase.written = true) ∧
      atEnd.kbase.value.toNat + atEnd.len.value.toNat ≤ atEnd.cfg.keyBytes ∧ past.busy = false ∧
      (past.len.written = true ∧ past.kbase.written = true) ∧
      past.cfg.keyBytes < past.kbase.value.toNat + past.len.value.toNat ∧ State.reset.busy = false ∧
      State.reset.len.written = false := by decide

/-- HASHW: a written key, an unwritten byte, a misaligned base, the bound, one word past it, and an unwritten register. -/
theorem witness_HashwHashesTheKeyWords :
    let run : State := { busyWith .hashw with keymem := wordKey }
    let odd : State := { idle with kbase := ⟨2, true⟩ }
    let atEnd : State := { idle with kbase := ⟨0xFFC, true⟩, len := ⟨1, true⟩ }
    let past : State := { idle with kbase := ⟨0xFFC, true⟩, len := ⟨2, true⟩ }
    run.busy = true ∧ ([1, 2, 3] : List Word).length = run.len.value.toNat ∧
      (∀ j < 3, ∀ i < 4, run.keymem.read (run.kbase.value.toNat + 4 * j + i) = some ((([1, 2, 3] : List Word).getD j 0).extractLsb' (8 * i) 8)) ∧
      (busyWith .hashw).busy = true ∧
      (∃ j < 4 * (busyWith .hashw).len.value.toNat, (busyWith .hashw).keymem.read (0 + j) = none) ∧ odd.busy = false ∧
      (odd.len.written = true ∧ odd.kbase.written = true) ∧ odd.kbase.value.toNat % 4 ≠ 0 ∧ atEnd.busy = false ∧
      (atEnd.len.written = true ∧ atEnd.kbase.written = true) ∧ atEnd.kbase.value.toNat % 4 = 0 ∧
      atEnd.kbase.value.toNat + 4 * atEnd.len.value.toNat ≤ atEnd.cfg.keyBytes ∧ past.kbase.value.toNat % 4 = 0 ∧
      past.cfg.keyBytes < past.kbase.value.toNat + 4 * past.len.value.toNat ∧ State.reset.busy = false ∧
      State.reset.kbase.written = false := by decide

/-- A word key of one group and a tail word, and a state that passes the issue check of HASHW at its bound. -/
theorem witness_WordHashAddsFourTimesTheTotalCount :
    let atEnd : State := { idle with kbase := ⟨0xFFC, true⟩, len := ⟨1, true⟩ }
    ([1, 2, 3, 4] : List Word).length = (4 : Word).toNat ∧ atEnd.cfg.wf = true ∧
      atEnd.kbase.value.toNat + 4 * atEnd.len.value.toNat ≤ atEnd.cfg.keyBytes := by decide

/-- The empty word key, one of four words, and a word key that HASHW hashes. -/
theorem witness_WordPathEqualsBytePath :
    ([] : List Word).length < 2 ^ 30 ∧ ([1, 2, 3, 4] : List Word).length < 2 ^ 30 ∧
      (busyWith .hashw).busy = true ∧ (busyWith .hashw).len.value.toNat < 2 ^ 30 ∧
      (nextOf (exec .hashw { busyWith .hashw with keymem := wordKey })).isSome = true := by decide

/-- HASH3, HASH2 and HASH1: busy, idle with their operands, and idle without one. -/
theorem witness_Hash3IsOneMixWithoutLength :
    (busyWith .hash3).busy = true ∧ idle.busy = false ∧
      (idle.arg0.written = true ∧ idle.arg1.written = true ∧ idle.arg2.written = true) ∧
      State.reset.arg2.written = false := by decide
theorem witness_Hash2SetsTheThirdWordToZero :
    (busyWith .hash2).busy = true ∧ ({ idle with arg2 := .unwritten } : State).busy = false ∧
      (idle.arg0.written = true ∧ idle.arg1.written = true) ∧ State.reset.arg1.written = false := by decide
theorem witness_Hash1SetsTwoWordsToZero :
    (busyWith .hash1).busy = true ∧ idle.busy = false ∧ idle.arg0.written = true ∧ State.reset.arg0.written = false := by
  decide

/-- A busy block with ARG1 and ARG2 zero. -/
theorem witness_FixedPathsAgreeOnZeroWords :
    let s : State := { busyWith .hash3 with arg1 := ⟨0, true⟩, arg2 := ⟨0, true⟩ }
    s.busy = true ∧ s.arg1.value = 0 ∧ s.arg2.value = 0 := by decide

/-- The smallest, the greatest and an ordinary pool. -/
theorem witness_MapIntoWidthBounds :
    (0 : Word).toNat ≤ (0 : Word).toNat ∧ (0 : Word).toNat ≤ (0xFFFFFFFF : Word).toNat ∧
      (0x0A000000 : Word).toNat ≤ (0x0A000003 : Word).toNat := by decide

/-- A pool of one address and the full range, and the ends of the hash range. -/
theorem witness_MapIntoStaysInThePool :
    (0xFFFFFFFF : Word).toNat ≤ (0xFFFFFFFF : Word).toNat ∧ (0 : Word).toNat ≤ (0xFFFFFFFF : Word).toNat ∧
      (0 : Word).toNat ≤ (0xFFFFFFFF : Word).toNat := by decide

/-- The pool of V5.16 to V5.20, with its first and last member. -/
theorem witness_MapIntoIsBalanced :
    (5 : Word).toNat ≤ (7 : Word).toNat ∧ 0 < (7 : Word).toNat - (5 : Word).toNat + 1 ∧
      2 < (7 : Word).toNat - (5 : Word).toNat + 1 := by decide

/-- MAPR and PMAP: busy, accepted with RMIN = RMAX, rejected with RMIN = RMAX + 1, and without an operand. -/
theorem witness_MaprMapsTheHashIntoThePool :
    let one : State := { idle with rmin := ⟨7, true⟩, rmax := ⟨7, true⟩ }
    let bad : State := { idle with rmin := ⟨8, true⟩, rmax := ⟨7, true⟩ }
    (busyWith .mapr).busy = true ∧ (busyWith .mapr).rmin.value.toNat ≤ (busyWith .mapr).rmax.value.toNat ∧
      one.busy = false ∧ (one.arg0.written = true ∧ one.rmin.written = true ∧ one.rmax.written = true) ∧
      one.rmin.value.toNat ≤ one.rmax.value.toNat ∧ bad.busy = false ∧
      (bad.arg0.written = true ∧ bad.rmin.written = true ∧ bad.rmax.written = true) ∧
      bad.rmax.value.toNat < bad.rmin.value.toNat ∧ State.reset.busy = false ∧ State.reset.rmin.written = false := by
  decide
theorem witness_PmapHashesTheAddressThenMaps :
    let bad : State := { idle with rmin := ⟨0x0A000004, true⟩ }
    (busyWith .pmap).busy = true ∧ (busyWith .pmap).rmin.value.toNat ≤ (busyWith .pmap).rmax.value.toNat ∧
      idle.busy = false ∧ (idle.arg0.written = true ∧ idle.rmin.written = true ∧ idle.rmax.written = true) ∧
      idle.rmin.value.toNat ≤ idle.rmax.value.toNat ∧ bad.busy = false ∧
      (bad.arg0.written = true ∧ bad.rmin.written = true ∧ bad.rmax.written = true) ∧
      bad.rmax.value.toNat < bad.rmin.value.toNat ∧ State.reset.busy = false ∧ State.reset.rmax.written = false := by decide

/-- The two sequences on a legal pool, and on one with RMIN = RMAX + 1. -/
theorem witness_PmapEqualsHash2ThenMapr :
    let s : State := { busyWith .hash2 with arg1 := ⟨0, true⟩ }
    let u : State := { idle with rmin := ⟨0x0A000004, true⟩ }
    s.busy = true ∧ s.arg1.value = 0 ∧ s.rmin.value.toNat ≤ s.rmax.value.toNat ∧ u.busy = false ∧ u.arg0.written = true ∧
      u.arg1.written = true ∧ u.rmin.written = true ∧ u.rmax.written = true ∧
      u.rmax.value.toNat < u.rmin.value.toNat := by decide

/-- Each command performs to a next state from a busy block. -/
theorem witness_PerformWritesOnlyItsResultSet :
    (∀ i ∈ [Instr.nop, .mix, .hashb, .hash3, .hash2, .hash1, .mapr, .pmap],
      (busyWith i).busy = true ∧ (nextOf (exec i (busyWith i))).isSome = true) ∧
      (nextOf (exec .hashw { busyWith .hashw with keymem := wordKey })).isSome = true := by decide

/-- Two blocks that agree on the operand set of HASH1 alone, on that of HASHB alone, and on that of HASHW alone: the key
buffers differ past the key. -/
theorem witness_ResultsDependOnOperandSetOnly :
    let one : State := { busyWith .hash1 with arg1 := ⟨9, true⟩, rmin := .unwritten, keymem := [] }
    let bytes : State := { busyWith .hashb with keymem := [(0, 0x61), (1, 0x62), (2, 0x63), (3, 0x64)] }
    let words : State := { busyWith .hashw with keymem := wordKey }
    let more : State := { words with keymem := Memory.write 12 0x04 wordKey }
    (one.busy = true ∧ one ≠ busyWith .hash1 ∧ (∀ r ∈ operandSet .hash1, (busyWith .hash1).regVal r = one.regVal r) ∧
      (nextOf (exec .hash1 (busyWith .hash1))).isSome = true) ∧
    (bytes.busy = true ∧ bytes ≠ busyWith .hashb ∧ (∀ r ∈ operandSet .hashb, (busyWith .hashb).regVal r = bytes.regVal r) ∧
      (∀ j < 3, (busyWith .hashb).keymem.read (0 + j) = bytes.keymem.read (0 + j)) ∧
      (nextOf (exec .hashb (busyWith .hashb))).isSome = true) ∧
    (more.busy = true ∧ more ≠ words ∧ (∀ r ∈ operandSet .hashw, words.regVal r = more.regVal r) ∧
      (∀ j < 4 * 3, words.keymem.read (0 + j) = more.keymem.read (0 + j)) ∧
      (nextOf (exec .hashw words)).isSome = true) := by decide

/-- A busy block at the Engine's turn, scheduled and past the schedule. -/
theorem witness_EngineStepRunsTheLatchedCommand :
    (busyWith .pmap).fault = none ∧ (busyWith .pmap).busy = true ∧
      (decodeOpcode (busyWith .pmap).lop).toOption = some .pmap ∧ (busyWith .pmap).schedule = [] ∧
      ({ busyWith .pmap with schedule := [.engine, .host] } : State).schedule = .engine :: [.host] := by decide

/-- An idle block whose host writes CMD, scheduled and past the schedule. -/
theorem witness_HostStepIssuesTheWrittenCommand :
    let s : State := { idle with program := [.write 0x000 4 0x08, .wait] }
    s.fault = none ∧ s.busy = false ∧ (decodeWord 0x08).toOption = some .pmap ∧ s.schedule = [] ∧
      s.program = .write 0x000 4 0x08 :: [.wait] ∧
      ({ s with schedule := [.host] } : State).schedule = .host :: [] := by decide

/-- A command word and one that is none. -/
theorem witness_FetchedWordIsTheNextOneRun :
    8 < 2 ^ 32 ∧ decodeTableWord 32 8 = some .pmap ∧ 0xFFFFFFFF < 2 ^ 32 ∧ decodeTableWord 32 0xFFFFFFFF = none := by decide

/-- An idle Engine. -/
theorem witness_IdleEngineMakesNoMove : idle.busy = false ∧ idle.lop = 0 := by decide

/-- A marked state, a state whose step faults, and a state whose step does not. -/
theorem witness_FaultMarkStopsTheRun :
    ({ idle with fault := some .roWrite } : State).fault = some .roWrite ∧
      ({ idle with program := [.write 0x028 4 0] } : State).fault = none ∧
      faultOf (step { idle with program := [.write 0x028 4 0] }) = some .roWrite ∧
      (nextOf (step idle)).isSome = true := by decide

/-- A busy block that keeps the invariant, with and without turns of the Host before the Engine's. -/
theorem witness_BusyEndsWithinTheSchedule :
    (busyWith .hash2).Inv ∧ (busyWith .hash2).busy = true ∧
      ({ busyWith .hash2 with schedule := [.host, .host] } : State).Inv := by decide

/-- A step that sets BUSY, one of the Engine that clears it, and a reset that does. -/
theorem witness_BusyChangesOnlyByIssuePerformReset :
    idle.busy = false ∧ (nextOf (step { idle with program := [.write 0x000 4 0x04] })).map (·.busy) = some true ∧
      (busyWith .hash3).busy = true ∧ (nextOf (step (busyWith .hash3))).map (·.busy) = some false ∧
      (nextOf (step { busyWith .hash3 with schedule := [.reset] })).map (·.busy) = some false := by decide

/-- A turn of the Host that changes the key buffer, and a reset that does. -/
theorem witness_NoCommandWritesTheKeyBuffer :
    (nextTurn { idle with program := [.write 0x1FFF 1 0x7A] }).1 = .host ∧
      (nextOf (step { idle with program := [.write 0x1FFF 1 0x7A] })).map (·.keymem) =
        some [(0, 0x61), (1, 0x62), (2, 0x63), (0xFFF, 0x7A)] ∧
      (nextOf (step { idle with schedule := [.reset] })).map (·.keymem) = some [] := by decide

end Sys2Proof.Tests
end

namespace Sys2Proof.Machine

/-! Proofs of the scope family (00_scope.md): what a key write stores of a value (R13, R54), and what a command's results
depend on (R15, R84). -/

/-! ## Key writes (R13, R53, R54) -/

/-- Byte i of a value lies in its n low-order bytes for every i < n. -/
theorem extractByte_mod (v : Word) {i n : Nat} (h : i < n) :
    (BitVec.ofNat 32 (v.toNat % 2 ^ (8 * n))).extractLsb' (8 * i) 8 = v.extractLsb' (8 * i) 8 := by
  ext j hj
  have hlt : 8 * i + j < 8 * n := by omega
  have hbit : v.toNat.testBit (8 * i + j) = v.getLsbD (8 * i + j) := rfl
  rw [BitVec.getElem_extractLsb', BitVec.getElem_extractLsb', BitVec.getLsbD_ofNat, Nat.testBit_mod_two_pow, hbit]
  simpa [hlt] using BitVec.lt_of_getLsbD

/-- The n low-order bytes of a value are those of the value modulo 2^(8n). -/
theorem leBytes_mod (n : Nat) (v : Word) : leBytes n (BitVec.ofNat 32 (v.toNat % 2 ^ (8 * n))) = leBytes n v :=
  List.map_congr_left fun _ hi => extractByte_mod v (List.mem_range.1 hi)

/-- `MemWrite` stores the n low-order bytes alone. -/
theorem Memory.memWrite_mod (m : Memory) (a n : Nat) (v : Word) :
    m.memWrite a n (BitVec.ofNat 32 (v.toNat % 2 ^ (8 * n))) = m.memWrite a n v := by
  rw [Memory.memWrite, Memory.memWrite, leBytes_mod]

/-- The widths of R53 in numbers. -/
theorem widthOk_iff (n : Nat) : widthOk n = true ↔ n = 1 ∨ n = 2 ∨ n = 4 := by
  simp [widthOk, or_assoc]

/-- A host write that R53 takes into the key window is `MemWrite` into the key buffer. -/
theorem hostWrite_keyWindow {s : State} {off n : Nat} (v : Word) (hb : s.busy = false) (hk : s.inKeyWindow off = true)
    (hw : widthOk n = true) (ha : off % n = 0) :
    hostWrite off n v s = .next { s with keymem := s.keymem.memWrite (off - keyWindowBase) n v } := by
  simp [hostWrite, hb, hk, hw, ha]

/-- Settles O56: an accepted key write is `MemWrite`, which stores low-order bytes alone. -/
theorem tooWideKeyWriteStoresLowBytes : Obligations.TooWideKeyWriteStoresLowBytes := by
  intro s off n v hb hlo hhi hn ha
  have hk := (inKeyWindow_iff s off).2 ⟨hlo, hhi⟩
  have hw := (widthOk_iff n).2 hn
  rw [hostWrite_keyWindow _ hb hk hw ha, hostWrite_keyWindow _ hb hk hw ha, Memory.memWrite_mod]

/-! ## Key reads (R60) -/

/-- A multi-byte read depends on the bytes it covers alone. -/
theorem Memory.readBytes_congr {m m' : Memory} (n a : Nat) (h : ∀ j < n, m.read (a + j) = m'.read (a + j)) :
    m.readBytes a n = m'.readBytes a n := by
  induction n generalizing a with
  | zero => rfl
  | succ n ih =>
    have htail : m.readBytes (a + 1) n = m'.readBytes (a + 1) n :=
      ih (a + 1) fun j hj => by simpa only [Nat.add_assoc, Nat.add_comm 1] using h (j + 1) (by omega)
    rw [Memory.readBytes, Memory.readBytes, htail, show m.read a = m'.read a from h 0 (by omega)]

/-- A read of n words depends on the 4n bytes it covers alone. -/
theorem Memory.readWords_congr {m m' : Memory} (n a : Nat) (h : ∀ j < 4 * n, m.read (a + j) = m'.read (a + j)) :
    m.readWords a n = m'.readWords a n := by
  induction n generalizing a with
  | zero => rfl
  | succ n ih =>
    have hhead : m.memRead a 4 = m'.memRead a 4 :=
      congrArg (Option.map (leSum 0)) (Memory.readBytes_congr 4 a fun j hj => h j (by omega))
    have htail : m.readWords (a + 4) n = m'.readWords (a + 4) n :=
      ih (a + 4) fun j hj => by simpa only [Nat.add_assoc] using h (4 + j) (by omega)
    rw [Memory.readWords, Memory.readWords, hhead, htail]

/-! ## The perform step, by what it leaves in the result set (R84, R85) -/

/-- Inversion of a perform step that answers a next state f k of some operand k, and else stops. -/
theorem next_iff_exists_operand {α : Type} {o : Option α} {f : α → State} {e stop : Result} {u : State}
    (hstop : ∀ v, stop ≠ .next v) (h : (o = none ∧ e = stop) ∨ ∃ k, o = some k ∧ e = .next (f k)) :
    e = .next u ↔ ∃ k, o = some k ∧ u = f k := by
  rcases h with ⟨ho, he⟩ | ⟨k, ho, he⟩
  · simp [ho, he, hstop]
  · simp [ho, he, eq_comm]

/-- HASHB performs to a next state exactly where its key bytes are written, and hashes them (R125). -/
theorem exec_hashb_next_iff {s u : State} (hb : s.busy = true) :
    exec .hashb s = .next u ↔ ∃ k, s.keymem.readBytes (s.regVal .kbase).toNat (s.regVal .len).toNat = some k ∧
      u = performHash (hashBytesState k (s.regVal .len) (s.regVal .seed)) s :=
  next_iff_exists_operand (by simp) (exec_perform_hashb hb)

/-- HASHW performs to a next state exactly where the bytes of its key words are written, and hashes them (R143). -/
theorem exec_hashw_next_iff {s u : State} (hb : s.busy = true) :
    exec .hashw s = .next u ↔ ∃ k, s.keymem.readWords (s.regVal .kbase).toNat (s.regVal .len).toNat = some k ∧
      u = performHash (hashWordsState k (s.regVal .len) (s.regVal .seed)) s :=
  next_iff_exists_operand (by simp) (exec_perform_hashw hb)

/-- MAPR performs to a next state exactly where its mapping is defined (R182, R184). -/
theorem exec_mapr_next_iff {s u : State} (hb : s.busy = true) :
    exec .mapr s = .next u ↔
      ∃ m, mapChecked (s.regVal .arg0) (s.regVal .rmin) (s.regVal .rmax) = some m ∧ u = performMapr m s :=
  next_iff_exists_operand (by simp) (exec_perform_mapr hb)

/-- PMAP performs to a next state exactly where the mapping of its hash is defined (R182, R185). -/
theorem exec_pmap_next_iff {s u : State} (hb : s.busy = true) :
    exec .pmap s = .next u ↔
      ∃ m, mapChecked (hash3State (s.regVal .arg0) 0 0 (s.regVal .seed)).c (s.regVal .rmin) (s.regVal .rmax) = some m ∧
        u = performPmap (hash3State (s.regVal .arg0) 0 0 (s.regVal .seed)) m s :=
  next_iff_exists_operand (by simp) (exec_perform_pmap hb)

/-- A perform operation fixes the results of a command: it leaves the same values in the result set, whatever the state it
is applied to. -/
def FixesResults (i : Instr) (P : State → State) : Prop := ∀ s t, ∀ r ∈ resultSet i, (P s).regVal r = (P t).regVal r

/-! Every perform operation fixes the results of its commands, once its operands are read (R85). -/

theorem finishPerform_fixesResults : FixesResults .nop State.finishPerform := by
  simp [FixesResults, resultSet]

theorem performMix_fixesResults (h : HashState) : FixesResults .mix (performMix h) := by
  simp [FixesResults, resultSet, State.regVal, performMix_eq]

theorem performHash_fixesResults {i : Instr} (hi : resultSet i = [.res0]) (h : HashState) :
    FixesResults i (performHash h) := by
  simp [FixesResults, hi, State.regVal]

theorem performMapr_fixesResults (m : Word) : FixesResults .mapr (performMapr m) := by
  simp [FixesResults, resultSet, State.regVal, performMapr_eq]

theorem performPmap_fixesResults (h : HashState) (m : Word) : FixesResults .pmap (performPmap h m) := by
  simp [FixesResults, resultSet, State.regVal, performPmap_eq]

/-- Two busy blocks that agree on a command's operand set and on the key bytes it covers take the same perform operation,
and that operation fixes the results (R15, R84). -/
theorem exec_perform_same_operation {i : Instr} {s t s' : State} (hs : s.busy = true) (ht : t.busy = true)
    (hops : ∀ r ∈ operandSet i, s.regVal r = t.regVal r)
    (hbytes : i = .hashb → ∀ j < (s.regVal .len).toNat,
      s.keymem.read ((s.regVal .kbase).toNat + j) = t.keymem.read ((s.regVal .kbase).toNat + j))
    (hwords : i = .hashw → ∀ j < 4 * (s.regVal .len).toNat,
      s.keymem.read ((s.regVal .kbase).toNat + j) = t.keymem.read ((s.regVal .kbase).toNat + j))
    (h : exec i s = .next s') : ∃ P, FixesResults i P ∧ s' = P s ∧ exec i t = .next (P t) := by
  cases i <;> simp only [operandSet, List.forall_mem_cons] at hops
  case nop =>
    rw [exec_perform_nop hs] at h
    exact ⟨_, finishPerform_fixesResults, (Host.Outcome.next.inj h).symm, exec_perform_nop ht⟩
  case mix =>
    obtain ⟨h0, h1, h2, -⟩ := hops
    rw [exec_perform_mix hs, h0, h1, h2] at h
    exact ⟨_, performMix_fixesResults _, (Host.Outcome.next.inj h).symm, exec_perform_mix ht⟩
  case hashb =>
    obtain ⟨hseed, hlen, hkbase, -⟩ := hops
    obtain ⟨k, hk, rfl⟩ := (exec_hashb_next_iff hs).1 h
    rw [Memory.readBytes_congr _ _ (hbytes rfl), hkbase, hlen] at hk
    rw [hlen, hseed]
    exact ⟨_, performHash_fixesResults rfl _, rfl, (exec_hashb_next_iff ht).2 ⟨k, hk, rfl⟩⟩
  case hashw =>
    obtain ⟨hseed, hlen, hkbase, -⟩ := hops
    obtain ⟨k, hk, rfl⟩ := (exec_hashw_next_iff hs).1 h
    rw [Memory.readWords_congr _ _ (hwords rfl), hkbase, hlen] at hk
    rw [hlen, hseed]
    exact ⟨_, performHash_fixesResults rfl _, rfl, (exec_hashw_next_iff ht).2 ⟨k, hk, rfl⟩⟩
  case hash3 =>
    obtain ⟨h0, h1, h2, hseed, -⟩ := hops
    rw [exec_perform_hash3 hs, h0, h1, h2, hseed] at h
    exact ⟨_, performHash_fixesResults rfl _, (Host.Outcome.next.inj h).symm, exec_perform_hash3 ht⟩
  case hash2 =>
    obtain ⟨h0, h1, hseed, -⟩ := hops
    rw [exec_perform_hash2 hs, h0, h1, hseed] at h
    exact ⟨_, performHash_fixesResults rfl _, (Host.Outcome.next.inj h).symm, exec_perform_hash2 ht⟩
  case hash1 =>
    obtain ⟨h0, hseed, -⟩ := hops
    rw [exec_perform_hash1 hs, h0, hseed] at h
    exact ⟨_, performHash_fixesResults rfl _, (Host.Outcome.next.inj h).symm, exec_perform_hash1 ht⟩
  case mapr =>
    obtain ⟨h0, hmin, hmax, -⟩ := hops
    obtain ⟨m, hm, rfl⟩ := (exec_mapr_next_iff hs).1 h
    rw [h0, hmin, hmax] at hm
    exact ⟨_, performMapr_fixesResults m, rfl, (exec_mapr_next_iff ht).2 ⟨m, hm, rfl⟩⟩
  case pmap =>
    obtain ⟨h0, hseed, hmin, hmax, -⟩ := hops
    obtain ⟨m, hm, rfl⟩ := (exec_pmap_next_iff hs).1 h
    rw [h0, hseed, hmin, hmax] at hm
    rw [h0, hseed]
    exact ⟨_, performPmap_fixesResults _ m, rfl, (exec_pmap_next_iff ht).2 ⟨m, hm, rfl⟩⟩

/-- Settles O46: the two blocks take one and the same perform operation, which fixes the results. -/
theorem resultsDependOnOperandSetOnly : Obligations.ResultsDependOnOperandSetOnly := by
  intro i s t s' hs ht hops hbytes hwords h
  obtain ⟨P, hP, rfl, he⟩ := exec_perform_same_operation hs ht hops hbytes hwords h
  exact ⟨P t, he, hP s t⟩

end Sys2Proof.Machine

namespace Sys2Proof.Machine

/-! Proofs of the state family (10_state.md): the register map (R21), STATUS (R23, R24), the key buffer (R35), what is never
read (R37, R39), the fault mark (R40), and the invariant. -/

/-! ## The register map (R21) -/

/-- STATUS is no register that a host write stores to (R21). -/
theorem ne_status_of_readWrite {r : HostReg} (h : r.readWrite = true) : r ≠ .status := by
  rintro rfl
  cases h

/-- A register lies at an offset exactly if the offset is its own (R21). -/
theorem atOffset_eq_some_iff {off : Nat} {r : HostReg} : HostReg.atOffset off = some r ↔ off = r.offset := by
  constructor
  · intro h
    unfold HostReg.atOffset at h
    split at h <;> cases h <;> rfl
  · rintro rfl
    exact atOffset_offset r

/-- Settles O3: the table is read off the definition, and the map is inverted entry by entry. -/
theorem registerMapOffsets : Obligations.RegisterMapOffsets :=
  ⟨by decide, fun _ _ => atOffset_eq_some_iff⟩

/-- Every register lies below the key window (R51). -/
theorem offset_lt_registerEnd (r : HostReg) : r.offset < registerEnd := by
  cases r <;> decide

/-- Every register lies at a multiple of 4 (R21). -/
theorem offset_mod_four (r : HostReg) : r.offset % 4 = 0 := by
  cases r <;> rfl

/-- A 32-bit read of a register gives its value, if it has one and the access is allowed (R55). -/
theorem hostRead_register {s : State} {r : HostReg} (hb : s.busy = true → r = .status) (hw : s.regWritten r = true) :
    hostRead r.offset 4 s = .ok (s.regVal r) := by
  have hbusy : s.busy = true → r.offset = HostReg.offset .status := fun h => congrArg _ (hb h)
  simpa [hostRead, inKeyWindow_register s (offset_lt_registerEnd r), offset_lt_registerEnd, offset_mod_four, hw]

/-- A host write at a register's offset that answers a next state is 32 bits wide (R53, R57). -/
theorem hostWrite_register_width {r : HostReg} {n : Nat} {v : Word} {s t : State}
    (h : hostWrite r.offset n v s = .next t) : n = 4 := by
  by_contra hn
  cases hb : s.busy <;>
    simp [hostWrite, hb, inKeyWindow_register s (offset_lt_registerEnd r), offset_lt_registerEnd, hn] at h

/-! ## The invariant, conjunct by conjunct -/

theorem inv_iff {s : State} :
    s.Inv ↔ s.cfg.wf = true ∧ s.keymem.wf = true ∧ keymemInside s = true ∧ statusLegal s.status = true ∧ s.acc = none ∧
      s.fault = none ∧ (s.busy = true → lopReady s = true) := by
  simp [State.Inv, State.inv, and_assoc, ← Bool.not_eq_true, ← imp_iff_not_or]

theorem keymemInside_iff (s : State) : keymemInside s = true ↔ ∀ c ∈ s.keymem, c.1 < s.cfg.keyBytes := by
  simp [keymemInside]

theorem lopReady_iff (s : State) :
    lopReady s = true ↔ ∃ i, decodeOpcode s.lop = .ok i ∧ operandsWritten i s = true ∧ issueCheck i s = none := by
  unfold lopReady
  cases decodeOpcode s.lop <;> simp

/-! ## STATUS (R23) -/

/-- Settles O10: a 32-bit read of STATUS gives it, busy or not, and the invariant names its values. -/
theorem statusReadsAreLegal : Obligations.StatusReadsAreLegal := by
  intro s hs
  obtain ⟨-, -, -, hlegal, -⟩ := inv_iff.1 hs
  refine ⟨s.status, hostRead_register (r := .status) (fun _ => rfl) rfl, ?_⟩
  simp only [statusLegal, Bool.or_eq_true, beq_iff_eq] at hlegal
  rcases hlegal with (((((h | h) | h) | h) | h) | h) | h <;> rw [h] <;> decide

/-! ## The fault mark (R40) -/

/-- Once a fault is marked, every step is that fault (R40). -/
theorem step_fault {s : State} {r : Fault} (h : s.fault = some r) : step s = .fault r := by
  simp [step, stepOnce, h]

/-- Settles O51: a marked fault is every step's outcome, and recording a fault marks it. -/
theorem faultMarkStopsTheRun : Obligations.FaultMarkStopsTheRun := by
  refine ⟨rfl, fun s r h => step_fault h, fun s r _ h => ?_, fun s t h => (step_next h).1⟩
  have hrecord : s.record (step s) = s.markFault r := by rw [h]; rfl
  exact ⟨hrecord, by rw [hrecord]; exact step_fault (markFault_fault s r)⟩

/-! ## What a step can do, by the agent whose turn it is -/

/-- Everything the issue of a word by an idle Engine has done when it answers a next state: rejected it, or accepted the
command it decodes to, whose operands are written and pass its check (R200). -/
theorem issueWord_next {w : Word} {s t : State} (hb : s.busy = false) (h : issueWord w s = .next t) :
    (∃ e, t = s.reject e) ∨
      ∃ i, decodeWord w = .ok i ∧ operandsWritten i s = true ∧ issueCheck i s = none ∧ t = s.accept i := by
  rcases issueWord_cases w hb with ⟨e, -, hw⟩ | ⟨i, hi, hw⟩
  · exact .inl ⟨.illegal, Host.Outcome.next.inj (h.symm.trans hw)⟩
  rcases issue_cases i s with ⟨-, hf⟩ | ⟨-, e, -, he⟩ | ⟨ho, hc, he⟩
  · simp [hw, hf] at h
  · exact .inl ⟨e, Host.Outcome.next.inj (h.symm.trans (hw.trans he))⟩
  · exact .inr ⟨i, hi, ho, hc, Host.Outcome.next.inj (h.symm.trans (hw.trans he))⟩

/-- A step that answers a next state is one move, of the agent whose turn it is (R40, R63). -/
theorem step_next_turn {s t : State} (h : step s = .next t) :
    ∃ sch, ((nextTurn s).1 = .host ∧ hostTurn { s with schedule := sch } = .next t) ∨
      ((nextTurn s).1 = .engine ∧ engineTurn { s with schedule := sch } = .next t) ∨
      ((nextTurn s).1 = .reset ∧ t = ({ s with schedule := sch } : State).platformReset) := by
  obtain ⟨sch, hsch⟩ := nextTurn_state s
  rw [step_noFault (step_next h).1, hsch] at h
  refine ⟨sch, ?_⟩
  cases hturn : (nextTurn s).1 <;> rw [hturn] at h
  case host => exact .inl ⟨rfl, h⟩
  case engine => exact .inr (.inl ⟨rfl, h⟩)
  case reset => exact .inr (.inr ⟨rfl, (Host.Outcome.next.inj h).symm⟩)

/-- The Engine's move leaves an idle block as it was, and a busy one with results, STATUS and accumulators alone changed
(R201). -/
theorem engineTurn_next {s t : State} (h : engineTurn s = .next t) :
    (s.busy = false ∧ t = s) ∨
      (s.busy = true ∧
        t = { s with res0 := t.res0, res1 := t.res1, res2 := t.res2, status := statusDone, acc := none }) := by
  rcases engineTurn_cases s with ⟨hb, he⟩ | ⟨hb, i, -, he⟩ | ⟨-, -, he⟩
  · exact .inl ⟨hb, Host.Outcome.next.inj (h.symm.trans he)⟩
  · exact .inr ⟨hb, exec_perform_next hb (he.symm.trans h)⟩
  · simp [he] at h

/-- What a host write has done when it answers a next state: stored key bytes, stored a register, or issued a command word
and so rejected or accepted it (R53, R200). -/
inductive WriteDone (off n : Nat) (v : Word) (s : State) : State → Prop
  | key (hwindow : s.inKeyWindow off = true) (hwidth : widthOk n = true) (halign : off % n = 0) :
      WriteDone off n v s { s with keymem := s.keymem.memWrite (off - keyWindowBase) n v }
  | register (r : HostReg) (hrw : r.readWrite = true) : WriteDone off n v s (s.writeReg r v)
  | rejected (e : ErrorCode) : WriteDone off n v s (s.reject e)
  | accepted (i : Instr) (hoff : off = 0x000) (hn : n = 4) (hdecode : decodeWord v = .ok i)
      (hwritten : operandsWritten i s = true) (hcheck : issueCheck i s = none) : WriteDone off n v s (s.accept i)

theorem hostWrite_done {off n : Nat} {v : Word} {s t : State} (h : hostWrite off n v s = .next t) :
    s.busy = false ∧ WriteDone off n v s t := by
  obtain ⟨hb, ⟨hk, hw, ha, rfl⟩ | ⟨r, -, hr, rfl⟩ | ⟨hoff, hi⟩⟩ := hostWrite_next h
  · exact ⟨hb, .key hk hw ha⟩
  · exact ⟨hb, .register r hr⟩
  · obtain rfl := atOffset_eq_some_iff.1 hoff
    rcases issueWord_next hb hi with ⟨e, rfl⟩ | ⟨i, hd, ho, hc, rfl⟩
    · exact ⟨hb, .rejected e⟩
    · exact ⟨hb, .accepted i rfl (hostWrite_register_width h) hd ho hc⟩

/-- What the Host's move has done when it answers a next state: changed the host's side of the machine alone, or made the
write at the head of its program, with BUSY = 0 (R53, R55, R63). -/
inductive HostDone (s : State) : State → Prop
  | hostSide (p : List HostOp) (rs : List Word) : HostDone s { s with program := p, reads := rs }
  | write (off n : Nat) (v : Word) (ops : List HostOp) (t : State) (hprogram : s.program = .write off n v :: ops)
      (hidle : s.busy = false) (hdone : WriteDone off n v { s with program := ops } t) : HostDone s t

theorem hostTurn_done {s t : State} (h : hostTurn s = .next t) : HostDone s t := by
  rcases hostTurn_next h with rfl | ⟨off, n, v, ops, hp, hw⟩ | ⟨v, p, rfl⟩
  · exact .hostSide t.program t.reads
  · obtain ⟨hb, hdone⟩ := hostWrite_done hw
    exact .write off n v ops t hp hb hdone
  · exact .hostSide p _

/-! ## BUSY over a step (R24) -/

/-- No move of the Host clears BUSY: a busy block takes no write (R53). -/
theorem hostTurn_keeps_busy {s t : State} (h : hostTurn s = .next t) (hs : s.busy = true) : t.busy = true := by
  cases hostTurn_done h with
  | hostSide => exact hs
  | write _ _ _ _ _ _ hidle => simp [hs] at hidle

/-- A move of the Host that sets BUSY is the acceptance of the command word it writes to CMD (R24, R200). -/
theorem hostTurn_sets_busy {s t : State} (h : hostTurn s = .next t) (hs : s.busy = false) (ht : t.busy = true) :
    ∃ w ops i, s.program = .write 0x000 4 w :: ops ∧ decodeWord w = .ok i ∧ t.lop = opcodeOf i ∧
      t.status = statusBusy := by
  cases hostTurn_done h with
  | hostSide => exact nomatch hs.symm.trans ht
  | write off n v ops _ hp _ hdone =>
    cases hdone with
    | key => exact nomatch hs.symm.trans ht
    | register r hr =>
      rw [busy_writeReg _ _ (ne_status_of_readWrite hr)] at ht
      exact nomatch hs.symm.trans ht
    | rejected e => simp at ht
    | accepted i hoff hn hd =>
      subst hoff hn
      exact ⟨v, ops, i, hp, hd, accept_lop _ i, accept_status _ i⟩

/-- A move of the Engine does not set BUSY (R201). -/
theorem engineTurn_idle {s t : State} (h : engineTurn s = .next t) (hs : s.busy = false) : t.busy = false := by
  rcases engineTurn_next h with ⟨-, rfl⟩ | ⟨hb, -⟩
  · exact hs
  · exact nomatch hs.symm.trans hb

/-- Settles O53: by the agent whose turn it is. -/
theorem busyChangesOnlyByIssuePerformReset : Obligations.BusyChangesOnlyByIssuePerformReset := by
  intro s t h
  obtain ⟨sch, ⟨hturn, h⟩ | ⟨hturn, h⟩ | ⟨hturn, rfl⟩⟩ := step_next_turn h
  · have hsets := hostTurn_sets_busy h
    have hkeeps := hostTurn_keeps_busy h
    exact ⟨fun hs ht => ⟨hturn, hsets hs ht⟩, fun hs ht => nomatch ht.symm.trans (hkeeps hs)⟩
  · have hidle := engineTurn_idle h
    exact ⟨fun hs ht => (nomatch (hidle hs).symm.trans ht), fun _ _ => .inl hturn⟩
  · exact ⟨fun _ ht => (nomatch (busy_platformReset _).symm.trans ht), fun _ _ => .inr hturn⟩

/-! ## The key buffer over a step (R35) -/

/-- A move of the Host that changes the key buffer is a write into the key window (R35, R53). -/
theorem hostTurn_changes_keymem {s t : State} (h : hostTurn s = .next t) (hne : t.keymem ≠ s.keymem) :
    ∃ off n v ops, s.program = .write off n v :: ops ∧ 0x1000 ≤ off ∧ off < 0x1000 + s.cfg.keyBytes := by
  cases hostTurn_done h with
  | hostSide => exact absurd rfl hne
  | write off n v ops _ hp _ hdone =>
    cases hdone with
    | key hwindow => exact ⟨off, n, v, ops, hp, (inKeyWindow_iff _ off).1 hwindow⟩
    | register r => exact absurd (writeReg_keymem _ r v) hne
    | rejected e => exact absurd (reject_keymem _ e) hne
    | accepted i => exact absurd (accept_keymem _ i) hne

/-- No move of the Engine changes the key buffer (R35). -/
theorem engineTurn_keymem {s t : State} (h : engineTurn s = .next t) : t.keymem = s.keymem := by
  rcases engineTurn_next h with ⟨-, rfl⟩ | ⟨-, ht⟩
  · rfl
  · rw [ht]

/-- Settles O54: by the agent whose turn it is. -/
theorem noCommandWritesTheKeyBuffer : Obligations.NoCommandWritesTheKeyBuffer := by
  intro s t h hne
  obtain ⟨sch, ⟨hturn, h⟩ | ⟨-, h⟩ | ⟨hturn, rfl⟩⟩ := step_next_turn h
  · have hwrite := hostTurn_changes_keymem h hne
    exact .inl ⟨hturn, hwrite⟩
  · exact absurd (engineTurn_keymem h) hne
  · exact .inr ⟨hturn, platformReset_keymem _⟩

/-! ## Every step keeps the invariant -/

/-- A state keeps the invariant if it has the parameters, the key buffer and the fault mark of one that does, no
accumulators, a legal STATUS, and a checked command in LOP where it is busy. -/
theorem inv_of_same_keymem {s t : State} (hs : s.Inv) (hcfg : t.cfg = s.cfg) (hkeymem : t.keymem = s.keymem)
    (hfault : t.fault = s.fault) (hacc : t.acc = none) (hlegal : statusLegal t.status = true)
    (hready : t.busy = true → lopReady t = true) : t.Inv := by
  obtain ⟨hwf, hcanon, hinside, -, -, hf, -⟩ := inv_iff.1 hs
  rw [keymemInside_iff] at hinside
  exact inv_iff.2 ⟨hcfg ▸ hwf, hkeymem ▸ hcanon, by rw [keymemInside_iff, hkeymem, hcfg]; exact hinside, hlegal, hacc,
    hfault.trans hf, hready⟩

/-- Reset keeps the invariant (R250). -/
theorem platformReset_inv {s : State} (hs : s.Inv) : s.platformReset.Inv :=
  inv_iff.2 ⟨(inv_iff.1 hs).1, rfl, rfl, rfl, rfl, rfl, by simp⟩

/-- The Engine's move keeps the invariant: a perform step leaves STATUS done and no accumulators (R36, R201). -/
theorem engineTurn_inv {s t : State} (hs : s.Inv) (h : engineTurn s = .next t) : t.Inv := by
  rcases engineTurn_next h with ⟨-, rfl⟩ | ⟨-, ht⟩
  · exact hs
  · rw [ht]
    exact inv_of_same_keymem hs rfl rfl rfl rfl rfl fun hb => nomatch (busy_finishPerform s).symm.trans hb

/-- A key write that R53 takes stores bytes inside the key buffer: KEY_BYTES is a multiple of each width (R8, R57). -/
theorem keymemInside_memWrite {s : State} {off n : Nat} (v : Word) (hcfg : s.cfg.wf = true)
    (hinside : keymemInside s = true) (hwindow : s.inKeyWindow off = true) (hwidth : widthOk n = true)
    (halign : off % n = 0) :
    keymemInside { s with keymem := s.keymem.memWrite (off - keyWindowBase) n v } = true := by
  obtain ⟨hlo, hhi⟩ := (inKeyWindow_iff s off).1 hwindow
  simp only [Config.wf, Bool.and_eq_true, decide_eq_true_eq] at hcfg
  have hend : off - 0x1000 + n ≤ s.cfg.keyBytes := by
    rcases (widthOk_iff n).1 hwidth with rfl | rfl | rfl <;> omega
  rw [keymemInside_iff] at hinside ⊢
  intro c hc
  rcases Memory.mem_writeBytes _ _ _ c hc with ⟨-, hlt⟩ | hmem
  · rw [leBytes_length] at hlt
    exact Nat.lt_of_lt_of_le hlt hend
  · exact hinside c hmem

@[simp] theorem decodeOpcode_opcodeOf (i : Instr) : decodeOpcode (opcodeOf i) = .ok i := by
  cases i <;> rfl

@[simp] theorem operandsWritten_accept (i j : Instr) (s : State) :
    operandsWritten i (s.accept j) = operandsWritten i s := by
  simp [operandsWritten, funext (accept_regWritten s j)]

@[simp] theorem issueCheck_accept (i j : Instr) (s : State) : issueCheck i (s.accept j) = issueCheck i s := by
  cases i <;> simp [issueCheck, accept_regVal]

/-- A host write keeps the invariant: an acceptance has checked the command it latches (R53, R200). -/
theorem writeDone_inv {off n : Nat} {v : Word} {s t : State} (hs : s.Inv) (hb : s.busy = false)
    (h : WriteDone off n v s t) : t.Inv := by
  obtain ⟨hcfg, hcanon, hinside, hlegal, hacc, hfault, hready⟩ := inv_iff.1 hs
  cases h with
  | key hwindow hwidth halign =>
    exact inv_iff.2 ⟨hcfg, Memory.wf_memWrite _ _ _ _ hcanon, keymemInside_memWrite v hcfg hinside hwindow hwidth halign,
      hlegal, hacc, hfault, fun ht => nomatch hb.symm.trans ht⟩
  | register r hrw =>
    have hne := ne_status_of_readWrite hrw
    exact inv_of_same_keymem hs (writeReg_cfg s r v) (writeReg_keymem s r v) (writeReg_fault s r v)
      ((writeReg_acc s r v).trans hacc) (by rwa [writeReg_status_other s v hne])
      fun ht => nomatch hb.symm.trans ((busy_writeReg s v hne).symm.trans ht)
  | rejected e => exact inv_of_same_keymem hs rfl rfl rfl hacc (statusLegal_values e).2.2.2 (by simp)
  | accepted i _ _ _ hwritten hcheck =>
    exact inv_of_same_keymem hs rfl rfl rfl hacc rfl
      fun _ => (lopReady_iff _).2 ⟨i, by simp, by simpa using hwritten, by simpa using hcheck⟩

/-- The Host's move keeps the invariant, which says nothing of the host's side of the machine. -/
theorem hostTurn_inv {s t : State} (hs : s.Inv) (h : hostTurn s = .next t) : t.Inv := by
  cases hostTurn_done h with
  | hostSide => exact hs
  | write _ _ _ ops _ _ hidle hdone => exact writeDone_inv (s := { s with program := ops }) hs hidle hdone

/-- Settles O7: by the agent whose turn it is. -/
theorem stepKeepsTheInvariant : Obligations.StepKeepsTheInvariant := by
  intro s t hs h
  obtain ⟨sch, h⟩ := step_next_turn h
  have hs' : ({ s with schedule := sch } : State).Inv := hs
  rcases h with ⟨-, h⟩ | ⟨-, h⟩ | ⟨-, rfl⟩
  · exact hostTurn_inv hs' h
  · exact engineTurn_inv hs' h
  · exact platformReset_inv hs'

/-! ## What the spec leaves unspecified is never read (R37, R39, R250)

Every function of the model answers the same from a state as from what that state shows, up to what the answer shows. So two
states that show the same take steps that show the same. -/

/-! ### What a state shows -/

@[simp] theorem FlaggedReg.visible_written (r : FlaggedReg) : r.visible.written = r.written := by
  unfold FlaggedReg.visible
  split <;> simp_all [FlaggedReg.unwritten]

theorem FlaggedReg.visible_of_written {r : FlaggedReg} (h : r.written = true) : r.visible = r := by
  simp [FlaggedReg.visible, h]

@[simp] theorem FlaggedReg.visible_visible (r : FlaggedReg) : r.visible.visible = r.visible := by
  cases h : r.written <;> simp [FlaggedReg.visible, FlaggedReg.unwritten, h]

@[simp] theorem visible_cfg (s : State) : s.visible.cfg = s.cfg := (rfl)
@[simp] theorem visible_busy (s : State) : s.visible.busy = s.busy := (rfl)
@[simp] theorem visible_keymem (s : State) : s.visible.keymem = s.keymem := (rfl)
@[simp] theorem visible_fault (s : State) : s.visible.fault = s.fault := (rfl)
@[simp] theorem visible_program (s : State) : s.visible.program = s.program := (rfl)
@[simp] theorem visible_schedule (s : State) : s.visible.schedule = s.schedule := (rfl)

@[simp] theorem visible_inKeyWindow (s : State) (off : Nat) : s.visible.inKeyWindow off = s.inKeyWindow off := (rfl)

theorem visible_lop {s : State} (h : s.busy = true) : s.visible.lop = s.lop := by
  simp [State.visible, h]

@[simp] theorem visible_regWritten (s : State) (r : HostReg) : s.visible.regWritten r = s.regWritten r := by
  cases r <;> simp [State.visible, State.regWritten]

@[simp] theorem visible_visible (s : State) : s.visible.visible = s.visible := by
  cases h : s.busy <;> simp_all [State.visible, State.busy]

/-- A register that holds a value shows it (R39). -/
theorem visible_regVal {s : State} {r : HostReg} (h : s.regWritten r = true) : s.visible.regVal r = s.regVal r := by
  cases r
  case cmd | status | seed => rfl
  all_goals exact congrArg FlaggedReg.value (FlaggedReg.visible_of_written h)

@[simp] theorem visible_operandsWritten (i : Instr) (s : State) : operandsWritten i s.visible = operandsWritten i s := by
  simp [operandsWritten, funext (visible_regWritten s)]

/-- A command whose operands are written finds their values in what the state shows (R84). -/
theorem visible_operands {i : Instr} {s : State} (h : operandsWritten i s = true) :
    ∀ r ∈ operandSet i, s.visible.regVal r = s.regVal r :=
  fun r hr => visible_regVal (List.all_eq_true.1 h r hr)

/-! ### The updates of the state -/

/-- An update respects hiding: from a state and from what it shows, it leaves states that show the same. -/
def RespectsVisible (P : State → State) : Prop := ∀ s : State, (P s.visible).visible = (P s).visible

theorem RespectsVisible.of_commutes {P : State → State} (h : ∀ s : State, P s.visible = (P s).visible) :
    RespectsVisible P :=
  fun s => by rw [h, visible_visible]

theorem reject_respects (e : ErrorCode) : RespectsVisible (·.reject e) := by
  simp [RespectsVisible, State.visible]

theorem accept_respects (i : Instr) : RespectsVisible (·.accept i) := by
  simp [RespectsVisible, State.visible]

theorem writeReg_respects {r : HostReg} (v : Word) (h : r ≠ .status) : RespectsVisible (·.writeReg r v) := by
  refine .of_commutes fun s => ?_
  cases r
  case status => exact absurd rfl h
  all_goals rfl

theorem keymem_respects (f : Memory → Memory) : RespectsVisible fun s => { s with keymem := f s.keymem } :=
  .of_commutes fun _ => rfl

theorem hostSide_respects (p : List HostOp) (v : Word) :
    RespectsVisible fun s => { s.hostReads v with program := p } :=
  .of_commutes fun _ => rfl

theorem finishPerform_respects : RespectsVisible State.finishPerform := by
  simp [RespectsVisible, State.visible]

theorem performHash_respects (h : HashState) : RespectsVisible (performHash h) := by
  simp [RespectsVisible, State.visible, State.busy, statusDone]

theorem performMix_respects (h : HashState) : RespectsVisible (performMix h) := by
  simp [RespectsVisible, State.visible, State.busy, statusDone, performMix_eq]

theorem performMapr_respects (m : Word) : RespectsVisible (performMapr m) := by
  simp [RespectsVisible, State.visible, State.busy, statusDone, performMapr_eq]

theorem performPmap_respects (h : HashState) (m : Word) : RespectsVisible (performPmap h m) := by
  simp [RespectsVisible, State.visible, State.busy, statusDone, performPmap_eq]

/-! ### The outcomes -/

theorem RespectsVisible.next {P : State → State} (hP : RespectsVisible P) (s : State) :
    visibleOutcome (.next (P s.visible)) = visibleOutcome (.next (P s)) := by
  rw [visibleOutcome, visibleOutcome, hP]

/-- Two outcomes that apply one update to what one operand holds, or else stop alike, show the same. -/
theorem RespectsVisible.next_of_operand {α : Type} {o : Option α} {P : α → State → State} {e e' stop : Result} {s : State}
    (hP : ∀ k, RespectsVisible (P k)) (h' : (o = none ∧ e' = stop) ∨ ∃ k, o = some k ∧ e' = .next (P k s.visible))
    (h : (o = none ∧ e = stop) ∨ ∃ k, o = some k ∧ e = .next (P k s)) : visibleOutcome e' = visibleOutcome e := by
  cases o with
  | none => simp_all
  | some k =>
    obtain rfl : e' = .next (P k s.visible) := by simpa using h'
    obtain rfl : e = .next (P k s) := by simpa using h
    exact (hP k).next s

/-- The perform step of a command whose operands are written reads nothing hidden (R39, R201). -/
theorem exec_perform_visible {i : Instr} {s : State} (hb : s.busy = true) (hw : operandsWritten i s = true) :
    visibleOutcome (exec i s.visible) = visibleOutcome (exec i s) := by
  have hb' : s.visible.busy = true := hb
  have hops := visible_operands hw
  cases i <;> simp only [operandSet, List.forall_mem_cons] at hops
  case nop =>
    rw [exec_perform_nop hb', exec_perform_nop hb]
    exact finishPerform_respects.next s
  case mix =>
    obtain ⟨h0, h1, h2, -⟩ := hops
    rw [exec_perform_mix hb', exec_perform_mix hb, h0, h1, h2]
    exact (performMix_respects _).next s
  case hashb =>
    obtain ⟨hseed, hlen, hkbase, -⟩ := hops
    have h' := exec_perform_hashb hb'
    rw [hseed, hlen, hkbase, visible_keymem] at h'
    exact RespectsVisible.next_of_operand (fun k => performHash_respects _) h' (exec_perform_hashb hb)
  case hashw =>
    obtain ⟨hseed, hlen, hkbase, -⟩ := hops
    have h' := exec_perform_hashw hb'
    rw [hseed, hlen, hkbase, visible_keymem] at h'
    exact RespectsVisible.next_of_operand (fun k => performHash_respects _) h' (exec_perform_hashw hb)
  case hash3 =>
    obtain ⟨h0, h1, h2, hseed, -⟩ := hops
    rw [exec_perform_hash3 hb', exec_perform_hash3 hb, h0, h1, h2, hseed]
    exact (performHash_respects _).next s
  case hash2 =>
    obtain ⟨h0, h1, hseed, -⟩ := hops
    rw [exec_perform_hash2 hb', exec_perform_hash2 hb, h0, h1, hseed]
    exact (performHash_respects _).next s
  case hash1 =>
    obtain ⟨h0, hseed, -⟩ := hops
    rw [exec_perform_hash1 hb', exec_perform_hash1 hb, h0, hseed]
    exact (performHash_respects _).next s
  case mapr =>
    obtain ⟨h0, hmin, hmax, -⟩ := hops
    have h' := exec_perform_mapr hb'
    rw [h0, hmin, hmax] at h'
    exact RespectsVisible.next_of_operand performMapr_respects h' (exec_perform_mapr hb)
  case pmap =>
    obtain ⟨h0, hseed, hmin, hmax, -⟩ := hops
    have h' := exec_perform_pmap hb'
    rw [h0, hseed, hmin, hmax] at h'
    exact RespectsVisible.next_of_operand (performPmap_respects _) h' (exec_perform_pmap hb)

/-- The check of an issue reads operands alone (R200). -/
theorem visible_issueCheck {i : Instr} {s : State} (hw : operandsWritten i s = true) :
    issueCheck i s.visible = issueCheck i s := by
  have hops := visible_operands hw
  cases i <;> simp_all [operandSet, issueCheck]

/-- An issue reads nothing hidden: an unwritten operand is the fault F_UNINIT_REG (R39, R200). -/
theorem issue_visible (i : Instr) (s : State) : visibleOutcome (issue i s.visible) = visibleOutcome (issue i s) := by
  unfold issue
  rw [visible_operandsWritten]
  split
  · rename_i hw
    rw [visible_issueCheck hw]
    cases issueCheck i s with
    | some e => exact (reject_respects e).next s
    | none => exact (accept_respects i).next s
  · rfl

theorem issueWord_visible (w : Word) {s : State} (hb : s.busy = false) :
    visibleOutcome (issueWord w s.visible) = visibleOutcome (issueWord w s) := by
  unfold issueWord
  cases decodeWord w with
  | error e => exact (reject_respects .illegal).next s
  | ok i =>
    have hb' : s.visible.busy = false := hb
    simpa only [exec_idle i hb', exec_idle i hb] using issue_visible i s

/-! ### The moves of the Host and of the Engine -/

theorem hostWriteReg_visible (r : HostReg) (v : Word) {s : State} (hb : s.busy = false) :
    visibleOutcome (hostWriteReg r v s.visible) = visibleOutcome (hostWriteReg r v s) := by
  cases r
  case cmd => exact issueWord_visible v hb
  case status | res0 | res1 | res2 => rfl
  case seed | len | kbase | rmin | rmax | arg0 | arg1 | arg2 => exact (writeReg_respects v (by decide)).next s

theorem hostWrite_visible (off n : Nat) (v : Word) (s : State) :
    visibleOutcome (hostWrite off n v s.visible) = visibleOutcome (hostWrite off n v s) := by
  cases hb : s.busy
  case true => simp [hostWrite, hb]
  case false =>
    simp only [hostWrite, visible_busy, hb, visible_inKeyWindow, Bool.false_eq_true, if_false]
    split
    · split
      · exact (keymem_respects (·.memWrite (off - keyWindowBase) n v)).next s
      · rfl
    · split
      · split
        · cases HostReg.atOffset off with
          | none => rfl
          | some r => exact hostWriteReg_visible r v hb
        · rfl
      · rfl

/-- A host read gives a register's value only where its written-flag is set (R39, R55). -/
theorem hostRead_visible (off n : Nat) (s : State) : hostRead off n s.visible = hostRead off n s := by
  have hregister (r : HostReg) : (if s.visible.regWritten r then .ok (s.visible.regVal r) else .error .uninitReg) =
      (if s.regWritten r then .ok (s.regVal r) else .error .uninitReg : Except Fault Word) := by
    rw [visible_regWritten]
    split
    · rw [visible_regVal ‹_›]
    · rfl
  simp only [hostRead, visible_busy, visible_inKeyWindow, visible_keymem, hregister]

theorem hostTurn_visible (s : State) : visibleOutcome (hostTurn s.visible) = visibleOutcome (hostTurn s) := by
  simp only [hostTurn, hostRead_visible, visible_program]
  split
  next => rw [visibleOutcome, visibleOutcome, visible_visible]
  next off n v rest _ => exact hostWrite_visible off n v { s with program := rest }
  next off n rest _ =>
    cases hostRead off n s with
    | ok v => exact (hostSide_respects rest v).next s
    | error r => rfl
  next rest _ =>
    cases hostRead (HostReg.offset .status) 4 s with
    | ok v => exact (hostSide_respects (if v.getLsbD 0 then s.program else rest) v).next s
    | error r => rfl

/-- A busy Engine runs the command that LOP shows; its operands are written (R39, R201). -/
theorem engineTurn_visible {s : State} (hready : s.busy = true → lopReady s = true) :
    visibleOutcome (engineTurn s.visible) = visibleOutcome (engineTurn s) := by
  cases hb : s.busy
  case false =>
    simp [engineTurn, hb, visibleOutcome]
  case true =>
    obtain ⟨i, hd, hw, -⟩ := (lopReady_iff s).1 (hready hb)
    simpa [engineTurn, hb, visible_lop hb, hd] using exec_perform_visible hb hw

/-- A move reads nothing hidden of a state that keeps the invariant. -/
theorem takeTurn_visible (turn : Turn) {s : State} (hs : s.Inv) :
    visibleOutcome (takeTurn turn s.visible) = visibleOutcome (takeTurn turn s) := by
  obtain ⟨-, -, -, -, -, -, hready⟩ := inv_iff.1 hs
  cases turn
  case host => exact hostTurn_visible s
  case engine => exact engineTurn_visible hready
  case reset => rfl

theorem nextTurn_visible (s : State) : nextTurn s.visible = ((nextTurn s).1, (nextTurn s).2.visible) := by
  cases h : s.schedule with
  | nil => rw [nextTurn_nil h, nextTurn_nil ((visible_schedule s).trans h)]; rfl
  | cons turn rest => rw [nextTurn_cons h, nextTurn_cons ((visible_schedule s).trans h)]; rfl

theorem nextTurn_inv {s : State} (hs : s.Inv) : (nextTurn s).2.Inv := by
  obtain ⟨sch, hsch⟩ := nextTurn_state s
  rw [hsch]
  exact hs

/-- A step reads nothing hidden of a state that keeps the invariant. -/
theorem step_visible {s : State} (hs : s.Inv) : visibleOutcome (step s.visible) = visibleOutcome (step s) := by
  obtain ⟨-, -, -, -, -, hfault, -⟩ := inv_iff.1 hs
  rw [step_noFault hfault, step_noFault ((visible_fault s).trans hfault), nextTurn_visible]
  exact takeTurn_visible _ (nextTurn_inv hs)

/-- Settles O11: either step shows what the step from the common visible state shows. -/
theorem unwrittenContentsNeverRead : Obligations.UnwrittenContentsNeverRead := by
  intro s t hs ht h
  rw [← step_visible hs, ← step_visible ht, h]

end Sys2Proof.Machine

namespace Sys2Proof.Machine

/-! Proofs of the memory family (20_memory.md): what a host access does while the Engine is idle, by where its offset
lies (R51, R53, R55), and the Host's move that makes it (R59, R63). -/

/-! ## Accesses to a register (R53, R55, R56) -/

/-- A 32-bit write at a register's offset is the write of that register (R53). -/
theorem hostWrite_register {s : State} (r : HostReg) (v : Word) (hb : s.busy = false) :
    hostWrite r.offset 4 v s = hostWriteReg r v s := by
  simp [hostWrite, hb, inKeyWindow_register s (offset_lt_registerEnd r), offset_lt_registerEnd, offset_mod_four]

/-- A host write stores to a read-write register (R21, R53). -/
theorem hostWriteReg_readWrite {r : HostReg} (v : Word) (s : State) (h : r.readWrite = true) :
    hostWriteReg r v s = .next (s.writeReg r v) := by
  cases r
  case seed | len | kbase | rmin | rmax | arg0 | arg1 | arg2 => rfl
  case cmd | status | res0 | res1 | res2 => cases h

/-- A 32-bit read of a register whose written-flag is clear faults (R39, R55). -/
theorem hostRead_register_unwritten {s : State} {r : HostReg} (hb : s.busy = false) (hw : s.regWritten r = false) :
    hostRead r.offset 4 s = .error .uninitReg := by
  simp [hostRead, hb, inKeyWindow_register s (offset_lt_registerEnd r), offset_lt_registerEnd, offset_mod_four, hw]

/-- Settles O14: the write is of a register that a host write may not store to. -/
theorem readOnlyRegisterWriteFaults : Obligations.ReadOnlyRegisterWriteFaults := by
  intro s r v hb hr
  rw [hostWrite_register r v hb]
  simp only [List.mem_cons, List.not_mem_nil, or_false] at hr
  rcases hr with rfl | rfl | rfl | rfl <;> rfl

/-- Settles O12: the write is `writeReg`, whose own laws give the register, the frame and the value read back. -/
theorem registerWriteStoresAndReadsBack : Obligations.RegisterWriteStoresAndReadsBack := by
  intro s r v hb hr
  have hcmd : r ≠ .cmd := by rintro rfl; cases hr
  have hvalue := regVal_writeReg_same s v hcmd
  have hflag := regWritten_writeReg_same s r v
  have hidle : (s.writeReg r v).busy = false := (busy_writeReg s v (ne_status_of_readWrite hr)).trans hb
  refine ⟨s.writeReg r v, ?_, hvalue, hflag, ?_, ?_, ?_⟩
  · rw [hostWrite_register r v hb, hostWriteReg_readWrite v s hr]
  · rw [hostRead_register (by simp [hidle]) hflag, hvalue]
  · exact fun q hq => ⟨regVal_writeReg_other s v hq, regWritten_writeReg_other s v hq⟩
  · simp

/-- Settles O13: CMD counts as written and holds 0; for the others the written-flag decides. -/
theorem registerReadGivesValueOrFaults : Obligations.RegisterReadGivesValueOrFaults := by
  intro s r hb
  have hbusy : s.busy = true → r = .status := by simp [hb]
  refine ⟨?_, fun _ hw => hostRead_register hbusy hw, fun _ hw => hostRead_register_unwritten hb hw⟩
  rintro rfl
  exact hostRead_register hbusy rfl

/-! ## Accesses outside the map or of a wrong form (R51, R57) -/

/-- A wrong width or a misaligned offset among the registers faults (R57). -/
theorem register_badAccess {s : State} {off n : Nat} (v : Word) (hb : s.busy = false) (hoff : off < registerEnd)
    (h : ¬(n = 4 ∧ off % 4 = 0)) :
    hostWrite off n v s = .fault .badAccess ∧ hostRead off n s = .error .badAccess := by
  simp [hostWrite, hostRead, hb, inKeyWindow_register s hoff, hoff, h]

/-- A wrong width or a misaligned offset in the key window faults (R57). -/
theorem keyWindow_badAccess {s : State} {off n : Nat} (v : Word) (hb : s.busy = false) (hk : s.inKeyWindow off = true)
    (h : ¬(widthOk n = true ∧ off % n = 0)) :
    hostWrite off n v s = .fault .badAccess ∧ hostRead off n s = .error .badAccess := by
  simp [hostWrite, hostRead, hb, hk, h]

/-- An access that starts neither among the registers nor in the key window faults (R51). -/
theorem unmapped_access {s : State} {off : Nat} (n : Nat) (v : Word) (hb : s.busy = false)
    (hk : s.inKeyWindow off = false) (hoff : registerEnd ≤ off) :
    hostWrite off n v s = .fault .unmapped ∧ hostRead off n s = .error .unmapped := by
  simp [hostWrite, hostRead, hb, hk, Nat.not_lt.2 hoff]

/-- Settles O18: the offset lies among the registers or in the key window, and each asks for its own form. -/
theorem wrongWidthOrAlignmentFaults : Obligations.WrongWidthOrAlignmentFaults := by
  rintro s off n v hb (⟨hoff, hform⟩ | ⟨hlo, hhi, hform⟩)
  · exact register_badAccess v hb hoff (by omega)
  · refine keyWindow_badAccess v hb ((inKeyWindow_iff s off).2 ⟨hlo, hhi⟩) ?_
    rw [widthOk_iff]
    omega

/-- Settles O19: both ranges lie past the registers and outside the key window. -/
theorem unmappedOffsetFaults : Obligations.UnmappedOffsetFaults := by
  intro s off n v hb h
  have hk : s.inKeyWindow off = false := by
    rw [← Bool.not_eq_true, inKeyWindow_iff]
    omega
  exact unmapped_access n v hb hk (by simp only [registerEnd]; omega)

/-! ## Values and their bytes (R13, R54) -/

/-- The sum of at most four bytes is a value of that many bytes. -/
theorem leSum_lt {k : List Byte} (hk : k.length ≤ 4) : (leSum 0 k).toNat < 2 ^ (8 * k.length) := by
  obtain ⟨hsum, hlt⟩ := leSum_toNat k 0 (by omega)
  rw [hsum, Nat.pow_zero, Nat.mul_one, Nat.pow_mul]
  exact hlt

/-- The n low-order bytes of a value of n bytes sum to it. -/
theorem leSum_leBytes_of_lt {n : Nat} {v : Word} (hn : n = 1 ∨ n = 2 ∨ n = 4) (hv : v.toNat < 2 ^ (8 * n)) :
    leSum 0 (leBytes n v) = v := by
  have hsum := (leSum_toNat (leBytes n v) 0 (by rw [leBytes_length]; omega)).1
  apply BitVec.eq_of_toNat_eq
  rcases hn with rfl | rfl | rfl
  case inr.inr => rw [leSum_leBytes]
  all_goals
    rw [hsum]
    simp [leBytes, List.range_succ, BitVec.extractLsb'_toNat, Nat.shiftRight_eq_div_pow]
    omega

/-- A value of n bytes is read back as it was stored (R54, R55). -/
theorem Memory.memRead_memWrite_same (m : Memory) (a : Nat) {n : Nat} {v : Word} (hn : n = 1 ∨ n = 2 ∨ n = 4)
    (hv : v.toNat < 2 ^ (8 * n)) : (m.memWrite a n v).memRead a n = some v := by
  rw [Memory.memRead_eq_some (leBytes_length n v), leSum_leBytes_of_lt hn hv]
  exact Memory.read_writeBytes_inside (leBytes n v) m a

/-- One byte read is that byte, zero-extended. -/
theorem Memory.memRead_one {m : Memory} {a : Nat} {b : Byte} (h : m.read a = some b) :
    m.memRead a 1 = some (b.setWidth 32) := by
  simp [Memory.memRead, Memory.readBytes, h, leSum, zext32]

/-- One word of a word key is the word that `MemRead` reads (R60). -/
theorem Memory.readWords_one {m : Memory} {a : Nat} {w : Word} (h : m.memRead a 4 = some w) :
    m.readWords a 1 = some [w] := by
  simp [Memory.readWords, h]

/-! ## Accesses to the key window (R54, R55, R62) -/

section
variable {s : State} {off n : Nat} (hb : s.busy = false) (hk : s.inKeyWindow off = true) (hw : widthOk n = true)
  (ha : off % n = 0)
include hb hk hw ha

/-- A host read that R55 takes into the key window gives what `MemRead` reads of the key buffer. -/
theorem hostRead_keyWindow {v : Word} (hm : s.keymem.memRead (off - keyWindowBase) n = some v) :
    hostRead off n s = .ok v := by
  simp [hostRead, hb, hk, hw, ha, hm]

/-- A host read that R55 takes into the key window faults where `MemRead` meets an unwritten byte (R39). -/
theorem hostRead_keyWindow_unwritten (hm : s.keymem.memRead (off - keyWindowBase) n = none) :
    hostRead off n s = .error .uninitKey := by
  simp [hostRead, hb, hk, hw, ha, hm]

end

/-- Settles O15: the write is `MemWrite`, whose bytes `MemRead` and the word read of HASHW give back. -/
theorem keyWriteStoresLittleEndian : Obligations.KeyWriteStoresLittleEndian := by
  intro s off n v hb hlo hhi hn ha hv
  have hk := (inKeyWindow_iff s off).2 ⟨hlo, hhi⟩
  have hw := (widthOk_iff n).2 hn
  have hback := Memory.memRead_memWrite_same s.keymem (off - keyWindowBase) hn hv
  refine ⟨_, hostWrite_keyWindow v hb hk hw ha, fun i hi => Memory.read_memWrite_inside _ _ n v hi,
    fun a => Memory.read_memWrite_outside _ _ n v, rfl, ?_, ?_⟩
  · rintro rfl
    exact Memory.readWords_one hback
  · exact hostRead_keyWindow (s := { s with keymem := s.keymem.memWrite (off - keyWindowBase) n v }) hb hk hw ha hback

/-- An aligned access that starts in the key window of a legal size ends in it (R8, R57). -/
theorem inKeyWindow_add {s : State} {off n i : Nat} (hcfg : s.cfg.wf = true) (hk : s.inKeyWindow off = true)
    (hn : n = 1 ∨ n = 2 ∨ n = 4) (ha : off % n = 0) (hi : i < n) : s.inKeyWindow (off + i) = true := by
  simp only [Config.wf, Bool.and_eq_true, decide_eq_true_eq] at hcfg
  rw [inKeyWindow_iff] at hk ⊢
  rcases hn with rfl | rfl | rfl <;> omega

/-- Each byte of a key write is read back alone (R62). -/
theorem hostRead_byte_of_keyWrite {s : State} {off n i : Nat} (v : Word) (hcfg : s.cfg.wf = true) (hb : s.busy = false)
    (hk : s.inKeyWindow off = true) (hn : n = 1 ∨ n = 2 ∨ n = 4) (ha : off % n = 0) (hi : i < n) :
    hostRead (off + i) 1 { s with keymem := s.keymem.memWrite (off - keyWindowBase) n v } =
      .ok ((v.extractLsb' (8 * i) 8).setWidth 32) := by
  have hlo : keyWindowBase ≤ off := ((inKeyWindow_iff s off).1 hk).1
  have hbyte := Memory.memRead_one (Memory.read_memWrite_inside s.keymem (off - keyWindowBase) n v hi)
  rw [← Nat.sub_add_comm hlo] at hbyte
  exact hostRead_keyWindow (s := { s with keymem := s.keymem.memWrite (off - keyWindowBase) n v }) hb
    (inKeyWindow_add hcfg hk hn ha hi) rfl (Nat.mod_one _) hbyte

/-- Settles O16: the word and the halfword are two widths of one key write. -/
theorem mixedWidthAccessesAgree : Obligations.MixedWidthAccessesAgree := by
  intro s off v hcfg hb hlo hhi
  have hk := (inKeyWindow_iff s off).2 ⟨hlo, hhi⟩
  exact ⟨fun ha => ⟨_, hostWrite_keyWindow v hb hk rfl ha,
      fun _ => hostRead_byte_of_keyWrite v hcfg hb hk (by decide) ha⟩,
    fun ha _ => ⟨_, hostWrite_keyWindow v hb hk rfl ha,
      fun _ => hostRead_byte_of_keyWrite v hcfg hb hk (by decide) ha⟩⟩

/-- Settles O17: the read is `MemRead`, the little-endian sum of the bytes, or nothing where one is unwritten. -/
theorem keyReadGivesBytesOrFaults : Obligations.KeyReadGivesBytesOrFaults := by
  intro s off n hb hlo hhi hn ha
  have hk := (inKeyWindow_iff s off).2 ⟨hlo, hhi⟩
  have hw := (widthOk_iff n).2 hn
  constructor
  · rintro k rfl hbytes
    exact ⟨leSum 0 k, hostRead_keyWindow hb hk hw ha (Memory.memRead_eq_some rfl hbytes), leSum_lt (by omega),
      leSum_byte k hn⟩
  · exact fun hgap => hostRead_keyWindow_unwritten hb hk hw ha ((Memory.memRead_eq_none _ _ _).2 hgap)

/-! ## The Host's move (R55, R59, R63, R89) -/

section
variable {s : State} {rest : List HostOp}

theorem hostTurn_write {off n : Nat} {v : Word} (hp : s.program = .write off n v :: rest) :
    hostTurn s = hostWrite off n v { s with program := rest } := by
  simp [hostTurn, hp]

theorem hostTurn_read_ok {off n : Nat} {v : Word} (hp : s.program = .read off n :: rest)
    (hr : hostRead off n s = .ok v) :
    hostTurn s = .next { s with program := rest, reads := s.reads ++ [v] } := by
  simp [hostTurn, hp, hr, State.hostReads]

theorem hostTurn_read_error {off n : Nat} {r : Fault} (hp : s.program = .read off n :: rest)
    (hr : hostRead off n s = .error r) : hostTurn s = .fault r := by
  simp [hostTurn, hp, hr]

/-- `WAIT` reads STATUS, which a busy block allows too, and stays exactly while the BUSY bit of it is set (R89). -/
theorem hostTurn_wait (hp : s.program = .wait :: rest) :
    hostTurn s = .next { s with program := if s.busy then s.program else rest, reads := s.reads ++ [s.status] } := by
  have hread : hostRead (HostReg.offset .status) 4 s = .ok s.status := hostRead_register (fun _ => rfl) rfl
  simp [hostTurn, hp, hread, State.hostReads, State.busy]

end

/-- Settles O21: a read keeps its value on the host's side, and `WAIT` is a read of STATUS. -/
theorem hostReadChangesNothing : Obligations.HostReadChangesNothing := by
  refine ⟨fun s off n rest hp => ⟨fun v => hostTurn_read_ok hp, fun r => hostTurn_read_error hp⟩,
    fun s rest hp => ⟨fun hb => ?_, fun hb => ?_⟩⟩
  · simp [hostTurn_wait hp, hb]
  · simp [hostTurn_wait hp, hb]

/-- A write to CMD of the word of a command is the command's own meaning (R53, R200). -/
theorem hostWrite_command {s : State} {w : Word} {i : Instr} (hb : s.busy = false) (hd : decodeWord w = .ok i) :
    hostWrite (HostReg.offset .cmd) 4 w s = exec i s := by
  rw [hostWrite_register .cmd w hb]
  simp [hostWriteReg, issueWord, hd]

/-- The Host's move whose next access writes the word of a command to CMD issues that command (R200). -/
theorem hostTurn_command {s : State} {w : Word} {i : Instr} {rest : List HostOp} (hb : s.busy = false)
    (hd : decodeWord w = .ok i) (hp : s.program = .write (HostReg.offset .cmd) 4 w :: rest) :
    hostTurn s = exec i { s with program := rest } :=
  (hostTurn_write hp).trans (hostWrite_command hb hd)

/-- Settles O48: the turn is the Host's, scheduled or past the schedule's end. -/
theorem hostStepIssuesTheWrittenCommand : Obligations.HostStepIssuesTheWrittenCommand := by
  intro s i w ops rest hfault hb hd hp
  refine ⟨fun hsch => ?_, fun hsch => ?_⟩
  · rw [step_noFault hfault, nextTurn_cons hsch]
    exact hostTurn_command (s := { s with schedule := rest }) hb hd hp
  · rw [step_noFault hfault, nextTurn_nil hsch, hb]
    exact hostTurn_command hb hd hp

end Sys2Proof.Machine

namespace Sys2Proof.Machine

/-! Proofs of the encoding family (30_encoding.md): the decoder against the opcode map (R80 to R82, R86), the registers a
perform step writes (R85), and the transactions of the host-program statements (R88, R89). -/

/-! ## The fields of a command word, in numbers (R80, R82) -/

theorem rsvdField_toNat (w : Word) : (rsvdField w).toNat = w.toNat / 2 ^ 8 := by
  have hw := w.isLt
  rw [rsvdField, BitVec.extractLsb'_toNat, Nat.shiftRight_eq_div_pow]
  omega

theorem rsvdField_eq_zero_iff (w : Word) : rsvdField w = 0 ↔ w.toNat / 2 ^ 8 = 0 := by
  rw [← BitVec.toNat_inj, rsvdField_toNat]
  rfl

theorem opcodeField_toNat (w : Word) : (opcodeField w).toNat = w.toNat % 2 ^ 8 := by
  simp [opcodeField]

theorem encode_toNat (i : Instr) : (encode i).toNat = (opcodeOf i).toNat := by
  cases i <;> rfl

/-! ## The decoder (R81, R86) -/

/-- The opcode map read from opcode to command is the inverse of the one from command to opcode (R81, R82). -/
theorem decodeOpcode_eq_ok_iff {op : BitVec 8} {i : Instr} : decodeOpcode op = .ok i ↔ op = opcodeOf i := by
  constructor
  · intro h
    unfold decodeOpcode at h
    split at h <;> cases h <;> exact BitVec.eq_of_toNat_eq ‹_›
  · rintro rfl
    exact decodeOpcode_opcodeOf i

/-- The opcodes in use are 0x00 to 0x08 (R82, R86). -/
theorem exists_eq_opcodeOf_iff (op : BitVec 8) : (∃ i, op = opcodeOf i) ↔ op.toNat ≤ 0x08 := by
  constructor
  · rintro ⟨i, rfl⟩
    cases i <;> decide
  · intro h
    obtain ⟨i, hi⟩ : ∃ i, op.toNat = (opcodeOf i).toNat := by
      interval_cases op.toNat
      exacts [⟨.nop, rfl⟩, ⟨.mix, rfl⟩, ⟨.hashb, rfl⟩, ⟨.hashw, rfl⟩, ⟨.hash3, rfl⟩, ⟨.hash2, rfl⟩, ⟨.hash1, rfl⟩,
        ⟨.mapr, rfl⟩, ⟨.pmap, rfl⟩]
    exact ⟨i, BitVec.eq_of_toNat_eq hi⟩

/-- A word decodes to a command exactly if RSVD is zero and OPCODE is the opcode of the command (R81). -/
theorem decodeWord_eq_ok_iff {w : Word} {i : Instr} :
    decodeWord w = .ok i ↔ rsvdField w = 0 ∧ opcodeField w = opcodeOf i := by
  unfold decodeWord
  split
  next hr => exact ⟨nofun, fun h => absurd h.1 hr⟩
  next hr => rw [decodeOpcode_eq_ok_iff, and_iff_right (not_not.1 hr)]

/-- The decoder in numbers: bits 31:8 are zero and bits 7:0 are the opcode (R80, R81). -/
theorem decodeWord_eq_ok_iff_toNat {w : Word} {i : Instr} :
    decodeWord w = .ok i ↔ w.toNat / 2 ^ 8 = 0 ∧ w.toNat % 2 ^ 8 = (opcodeOf i).toNat := by
  rw [decodeWord_eq_ok_iff, rsvdField_eq_zero_iff, ← BitVec.toNat_inj, opcodeField_toNat]

/-- The decoder inverts the encoder, and reads a command from no other word (R81, R82). -/
theorem decodeWord_eq_ok_iff_eq_encode {w : Word} {i : Instr} : decodeWord w = .ok i ↔ w = encode i := by
  have hop := (opcodeOf i).isLt
  rw [decodeWord_eq_ok_iff_toNat, ← BitVec.toNat_inj, encode_toNat]
  omega

/-- A word is some command exactly if bits 31:8 are zero and bits 7:0 are an opcode in use (R81, R86). -/
theorem exists_decodeWord_iff (w : Word) :
    (∃ i, decodeWord w = .ok i) ↔ w.toNat / 2 ^ 8 = 0 ∧ w.toNat % 2 ^ 8 ≤ 0x08 := by
  simp only [decodeWord_eq_ok_iff, exists_and_left, exists_eq_opcodeOf_iff, rsvdField_eq_zero_iff, opcodeField_toNat]

/-- A write to CMD of a word that is no command is the rejection ILLEGAL (R86, R200, R223). -/
theorem hostWrite_illegal {s : State} {w : Word} (hb : s.busy = false) (hw : ¬∃ i, decodeWord w = .ok i) :
    hostWrite (HostReg.offset .cmd) 4 w s = .next (s.reject .illegal) := by
  rw [hostWrite_register .cmd w hb, hostWriteReg]
  rcases issueWord_cases w hb with ⟨e, -, he⟩ | ⟨i, hi, -⟩
  · exact he
  · exact absurd ⟨i, hi⟩ hw

/-- Settles O2: every clause reads the decoder through its fields. -/
theorem decodeIsExactlyTheOpcodeMap : Obligations.DecodeIsExactlyTheOpcodeMap := by
  intro w
  refine ⟨fun p hp => ?_, fun i => decodeWord_eq_ok_iff_eq_encode, exists_decodeWord_iff w,
    fun hw s hb => hostWrite_illegal hb hw⟩
  have hmap : (opcodeOf p.1).toNat = p.2 := by
    revert p
    decide
  rw [decodeWord_eq_ok_iff_toNat, hmap]

/-- Settles O1: the encoder and the decoder are evaluated at the words written out. -/
theorem commandWordsOfTheOpcodeMap : Obligations.CommandWordsOfTheOpcodeMap := by
  unfold Obligations.CommandWordsOfTheOpcodeMap
  simp only [decodeWord_eq_ok_iff_eq_encode]
  decide

/-! ## The registers a perform step writes (R85, R201) -/

/-- `x[R] <- v` for each pair (R, v) of a list, in order (R13). -/
def State.writeRegs (s : State) (ws : List (HostReg × Word)) : State := ws.foldl (fun u p => u.writeReg p.1 p.2) s

@[simp] theorem writeRegs_nil (s : State) : s.writeRegs [] = s := rfl

@[simp] theorem writeRegs_cons (s : State) (p : HostReg × Word) (ws : List (HostReg × Word)) :
    s.writeRegs (p :: ws) = (s.writeReg p.1 p.2).writeRegs ws := rfl

/-- Writing registers leaves every other one's value and flag. -/
theorem writeRegs_other {r : HostReg} (ws : List (HostReg × Word)) (s : State) (h : r ∉ ws.map Prod.fst) :
    (s.writeRegs ws).regVal r = s.regVal r ∧ (s.writeRegs ws).regWritten r = s.regWritten r := by
  induction ws generalizing s with
  | nil => exact ⟨rfl, rfl⟩
  | cons p ws ih =>
    obtain ⟨hp, hws⟩ := List.ne_and_not_mem_of_not_mem_cons h
    rw [writeRegs_cons, (ih _ hws).1, (ih _ hws).2]
    exact ⟨regVal_writeReg_other s _ hp, regWritten_writeReg_other s _ hp⟩

/-- Every written register's flag is set. -/
theorem regWritten_writeRegs_mem {r : HostReg} (ws : List (HostReg × Word)) (s : State) (h : r ∈ ws.map Prod.fst) :
    (s.writeRegs ws).regWritten r = true := by
  induction ws generalizing s with
  | nil => cases h
  | cons p ws ih =>
    rw [writeRegs_cons]
    by_cases hws : r ∈ ws.map Prod.fst
    · exact ih _ hws
    · obtain rfl := (List.mem_cons.1 h).resolve_right hws
      rw [(writeRegs_other ws _ hws).2, regWritten_writeReg_same]

/-- A perform step that answers a next state writes the registers of the result set, and ends (R85, R201). -/
theorem exec_perform_writes {i : Instr} {s t : State} (hb : s.busy = true) (h : exec i s = .next t) :
    ∃ ws : List (HostReg × Word), ws.map Prod.fst = resultSet i ∧ t = (s.writeRegs ws).finishPerform := by
  rcases exec_perform_shapes hb h with ⟨rfl, rfl⟩ | ⟨rfl, k, rfl⟩ | ⟨hi, k, rfl⟩ | ⟨rfl, m, rfl⟩ | ⟨rfl, k, m, rfl⟩
  · exact ⟨[], rfl, rfl⟩
  · exact ⟨[(.res0, k.a), (.res1, k.b), (.res2, k.c)], rfl, performMix_eq k s⟩
  · have hres : ∀ j ∈ [Instr.hashb, .hashw, .hash3, .hash2, .hash1], resultSet j = [.res0] := by decide
    exact ⟨[(.res0, k.c)], (hres i hi).symm, performHash_eq k s⟩
  · exact ⟨[(.res0, m)], rfl, performMapr_eq m s⟩
  · exact ⟨[(.res0, m), (.res1, k.c)], rfl, performPmap_eq k m s⟩

/-- Settles O45: the registers by what the step writes, the rest of the state by what it leaves. -/
theorem performWritesOnlyItsResultSet : Obligations.PerformWritesOnlyItsResultSet := by
  intro i s t hb h
  have hframe := exec_perform_next hb h
  obtain ⟨ws, hws, rfl⟩ := exec_perform_writes hb h
  refine ⟨fun r hr hne => ?_, fun r hr => ?_, by decide, ?_⟩
  · rw [finishPerform_regVal _ hne, finishPerform_regWritten]
    exact writeRegs_other ws s (hws ▸ hr)
  · rw [finishPerform_regWritten]
    exact regWritten_writeRegs_mem ws s (hws ▸ hr)
  · rw [hframe]
    exact ⟨rfl, rfl, fun _ => rfl, rfl, rfl, rfl, rfl, rfl, rfl, rfl⟩

/-! ## The host-program statements (R88, R89) -/

/-- `LDKEY` writes its first byte, then the others from the next offset on (R89). -/
theorem expand_ldkey_cons (k : Nat) (b : Byte) (bs : List Byte) :
    HostStmt.expand (.ldkey k (b :: bs)) = HostStmt.expand (.wk8 k b) ++ HostStmt.expand (.ldkey (k + 1) bs) := by
  simp [HostStmt.expand, List.zipIdx_succ, Nat.add_comm, Nat.add_left_comm]

/-- `LDWORDS` writes its first word, then the others from the offset 4 higher on (R89). -/
theorem expand_ldwords_cons (k : Nat) (w : Word) (ws : List Word) :
    HostStmt.expand (.ldwords k (w :: ws)) = HostStmt.expand (.wk32 k w) ++ HostStmt.expand (.ldwords (k + 4) ws) := by
  simp [HostStmt.expand, List.zipIdx_succ, Nat.mul_add, Nat.add_assoc, Nat.add_comm, Nat.add_left_comm]

/-- Settles O55: all but the lists' recursion is the definition of the expansion. -/
theorem hostStatementsExpand : Obligations.HostStatementsExpand :=
  ⟨fun _ _ => rfl, fun _ => rfl, fun _ _ => rfl, fun _ _ => rfl, fun _ _ => rfl, fun _ => ⟨rfl, rfl, rfl⟩,
    fun _ => ⟨rfl, rfl⟩, fun _ => rfl, rfl, fun _ => ⟨rfl, rfl⟩, expand_ldkey_cons, expand_ldwords_cons⟩

end Sys2Proof.Machine

namespace Sys2Proof.Machine

/-! Proofs of the mixing family (40_mixcore.md): the listing of `Mix` (R100, R101), its inverse (R102), and the MIX
command (R104). -/

/-! ## The inverse of `Mix` (R102) -/

/-- A line's update of x by y, z and a shift w of z is undone by its inverse (R102). -/
theorem unline_line_word (x y z w : Word) : (((x - y - z) ^^^ w) ^^^ w) + z + y = x := by
  rw [BitVec.xor_assoc, BitVec.xor_self, BitVec.xor_zero, BitVec.sub_add_cancel, BitVec.sub_add_cancel]

/-- A line's update undoes its inverse (R102). -/
theorem line_unline_word (x y z w : Word) : (((x ^^^ w) + z + y) - y - z) ^^^ w = x := by
  rw [BitVec.add_sub_cancel, BitVec.add_sub_cancel, BitVec.xor_assoc, BitVec.xor_self, BitVec.xor_zero]

/-! Each line leaves the two accumulators it reads, so that it and its inverse shift the same word. -/

@[simp] theorem unlineA_lineA (n : Nat) (h : HashState) : (h.lineA n).unlineA n = h :=
  congrArg (fun x => HashState.mk x h.b h.c) (unline_line_word h.a h.b h.c (h.c >>> n))

@[simp] theorem unlineB_lineB (n : Nat) (h : HashState) : (h.lineB n).unlineB n = h :=
  congrArg (fun x => HashState.mk h.a x h.c) (unline_line_word h.b h.c h.a (h.a <<< n))

@[simp] theorem unlineC_lineC (n : Nat) (h : HashState) : (h.lineC n).unlineC n = h :=
  congrArg (fun x => HashState.mk h.a h.b x) (unline_line_word h.c h.a h.b (h.b >>> n))

@[simp] theorem lineA_unlineA (n : Nat) (h : HashState) : (h.unlineA n).lineA n = h :=
  congrArg (fun x => HashState.mk x h.b h.c) (line_unline_word h.a h.b h.c (h.c >>> n))

@[simp] theorem lineB_unlineB (n : Nat) (h : HashState) : (h.unlineB n).lineB n = h :=
  congrArg (fun x => HashState.mk h.a x h.c) (line_unline_word h.b h.c h.a (h.a <<< n))

@[simp] theorem lineC_unlineC (n : Nat) (h : HashState) : (h.unlineC n).lineC n = h :=
  congrArg (fun x => HashState.mk h.a h.b x) (line_unline_word h.c h.a h.b (h.b >>> n))

/-- `Unmix` undoes the lines of `Mix` from the last to the first. -/
theorem unmix_mix (h : HashState) : unmix (mix h) = h := by
  simp only [mix, unmix, unlineA_lineA, unlineB_lineB, unlineC_lineC]

/-- `Mix` undoes the inverted lines of `Unmix` from line 1 on. -/
theorem mix_unmix (h : HashState) : mix (unmix h) = h := by
  simp only [mix, unmix, lineA_unlineA, lineB_unlineB, lineC_unlineC]

/-- Settles O25: each line has its inverse, so the nine in order have the inverses in reverse. -/
theorem mixIsABijection : Obligations.MixIsABijection :=
  ⟨unmix_mix, mix_unmix, Function.bijective_iff_has_inverse.2 ⟨unmix, unmix_mix, mix_unmix⟩,
    fun n h => ⟨unlineA_lineA n h, unlineB_lineB n h, unlineC_lineC n h⟩⟩

/-! ## The listing (R100, R101) -/

/-! A line on a triple: its two subtractions and its XOR with a shift, in the listing's order. -/

theorem lineA_mk (n : Nat) (a b c : Word) : HashState.lineA n ⟨a, b, c⟩ = ⟨(a - b - c) ^^^ (c >>> n), b, c⟩ := rfl

theorem lineB_mk (n : Nat) (a b c : Word) : HashState.lineB n ⟨a, b, c⟩ = ⟨a, (b - c - a) ^^^ (a <<< n), c⟩ := rfl

theorem lineC_mk (n : Nat) (a b c : Word) : HashState.lineC n ⟨a, b, c⟩ = ⟨a, b, (c - a - b) ^^^ (b >>> n)⟩ := rfl

/-- Settles O24: every line of `Mix` is its three operations on the triple the line before leaves. -/
theorem mixIsTheListing : Obligations.MixIsTheListing := by
  intro a b c
  simp only [mix, lineA_mk, lineB_mk, lineC_mk]

/-! ## The MIX command (R104) -/

/-- A command with the Engine idle and an operand unwritten is the fault F_UNINIT_REG (R39, R200). -/
theorem exec_issue_unwritten {i : Instr} {s : State} (hb : s.busy = false) (hw : operandsWritten i s = false) :
    exec i s = .fault .uninitReg := by
  simpa [exec_idle i hb, hw] using issue_cases i s

/-- A command with the Engine idle, its operands written and its check passed is accepted (R200). -/
theorem exec_issue_accepted {i : Instr} {s : State} (hb : s.busy = false) (hw : operandsWritten i s = true)
    (hc : issueCheck i s = none) : exec i s = .next (s.accept i) := by
  simpa [exec_idle i hb, hw, hc] using issue_cases i s

/-- The operands of MIX are ARG0, ARG1 and ARG2 (R84). -/
theorem operandsWritten_mix_iff (s : State) :
    operandsWritten .mix s = true ↔ s.arg0.written = true ∧ s.arg1.written = true ∧ s.arg2.written = true := by
  simp [operandsWritten, operandSet, State.regWritten]

/-- Settles O26: MIX performs one `Mix` of its operands, and its issue has no check but their flags. -/
theorem mixCommandWritesTheTriple : Obligations.MixCommandWritesTheTriple := by
  refine ⟨fun s hb => ?_, fun s hb => ⟨fun hw => ?_, fun hw => ?_⟩, rfl, by decide, by decide⟩
  · simp only [exec_perform_mix hb, performMix_eq, State.regVal, statusDone]
  · exact exec_issue_accepted hb ((operandsWritten_mix_iff s).2 hw) rfl
  · rw [← operandsWritten_mix_iff, Bool.not_eq_true] at hw
    exact exec_issue_unwritten hb hw

end Sys2Proof.Machine

namespace Sys2Proof.Machine

/-! Proofs of the byte-hash family (41_byte_hash.md): the chunk loop and the tail (R120, R122), the byte path at every
length (R123, R124) with its equalities (R126), and the HASHB command (R125). -/

/-! ## A full chunk (R120) -/

/-- The little-endian word of four bytes (R61), written out. -/
theorem leSum_four (b0 b1 b2 b3 : Byte) :
    leSum 0 [b0, b1, b2, b3] =
      b0.setWidth 32 + (b1.setWidth 32 <<< 8) + (b2.setWidth 32 <<< 16) + (b3.setWidth 32 <<< 24) := by
  simp [leSum, zext32, BitVec.add_assoc]

/-- Settles O27: the loop absorbs the first chunk, whose words are the sums of their four bytes. -/
theorem chunkAddsThreeWordsAndMixes : Obligations.ChunkAddsThreeWordsAndMixes := by
  intro m k0 k1 k2 k3 k4 k5 k6 k7 k8 k9 k10 k11 rest h
  rw [← leSum_four, ← leSum_four, ← leSum_four]
  rfl

/-! ## The tail (R122) -/

/-- A zero byte adds nothing to an accumulator, whatever its shift. -/
theorem addTo_zero_byte (h : HashState) (x : Accumulator) (sh : Nat) : h.addTo x (zext32 0 <<< sh) = h := by
  cases x <;> simp [HashState.addTo, zext32]

/-- A zero tail byte changes nothing at any position (R126). -/
@[simp] theorem addTailByte_zero (p : Nat) (h : HashState) : addTailByte p 0 h = h := by
  unfold addTailByte
  split
  · exact addTo_zero_byte h _ _
  · rfl

/-- A tail of zero bytes changes nothing (R126). -/
theorem foldTail_replicate_zero (n m : Nat) (h : HashState) : foldTail n (List.replicate m 0) h = h := by
  induction n generalizing h with
  | zero => rfl
  | succ n ih =>
    have hbyte : (List.replicate m (0 : Byte)).getD n 0 = 0 := by simp
    rw [foldTail, hbyte, addTailByte_zero, ih]

/-- Positions past the end of a tail count as zero bytes and change nothing. -/
theorem foldTail_past_end (t : List Byte) (m : Nat) (h : HashState) :
    foldTail (t.length + m) t h = foldTail t.length t h := by
  induction m with
  | zero => rfl
  | succ m ih =>
    have hbyte : t.getD (t.length + m) 0 = 0 := by simp
    rw [← Nat.add_assoc, foldTail, hbyte, addTailByte_zero, ih]

/-! Adding to one accumulator of a triple. -/

theorem addTo_a_mk (a b c v : Word) : HashState.addTo ⟨a, b, c⟩ .a v = ⟨a + v, b, c⟩ := rfl

theorem addTo_b_mk (a b c v : Word) : HashState.addTo ⟨a, b, c⟩ .b v = ⟨a, b + v, c⟩ := rfl

theorem addTo_c_mk (a b c v : Word) : HashState.addTo ⟨a, b, c⟩ .c v = ⟨a, b, c + v⟩ := rfl

/-- The eleven positions of the tail table, folded from the last to the first, written out. -/
theorem foldTail_eleven (t : List Byte) (h : HashState) :
    foldTail 11 t h =
      (let z : Nat → Word := fun p => (t.getD p 0).setWidth 32
       ⟨h.a + (z 0 + (z 1 <<< 8) + (z 2 <<< 16) + (z 3 <<< 24)),
        h.b + (z 4 + (z 5 <<< 8) + (z 6 <<< 16) + (z 7 <<< 24)),
        h.c + ((z 8 <<< 8) + (z 9 <<< 16) + (z 10 <<< 24))⟩) := by
  obtain ⟨a, b, c⟩ := h
  simp only [foldTail, addTailByte, tailTable, List.getElem?_cons_succ, List.getElem?_cons_zero, addTo_a_mk, addTo_b_mk,
    addTo_c_mk, zext32, BitVec.shiftLeft_zero, HashState.mk.injEq]
  exact ⟨by ring, by ring, by ring⟩

/-- Settles O28: a shorter tail is folded like one of eleven bytes, the missing ones zero. -/
theorem tailBytesGoWhereTheTableSays : Obligations.TailBytesGoWhereTheTableSays := by
  intro t h ht
  rw [← foldTail_past_end t (11 - t.length), Nat.add_sub_cancel' ht]
  exact foldTail_eleven t h

/-! ## The byte path (R120, R123, R124) -/

/-- `HashBytes` of a key with its own length (R120, R123): the full chunks, the total length, the rest of the key as the
tail, and the final `Mix`. -/
theorem hashBytes_eq {k : List Byte} (seed : Word) (hk : k.length < 2 ^ 32) :
    hashBytes k (BitVec.ofNat 32 k.length) seed =
      (mix (foldTail (k.length % 12) (k.drop (12 * (k.length / 12)))
        ((chunkLoop (k.length / 12) k (hashStart seed)).1.addTo .c (BitVec.ofNat 32 k.length)))).c := by
  have hlen : (BitVec.ofNat 32 k.length).toNat = k.length := by rw [BitVec.toNat_ofNat, Nat.mod_eq_of_lt hk]
  rw [hashBytes, hashBytesState, hashBytesPreFinal, chunkLoop_tail, hlen]

/-- A key shorter than a chunk is all tail (R124). -/
theorem hashBytes_short {k : List Byte} (seed : Word) (hk : k.length ≤ 11) :
    hashBytes k (BitVec.ofNat 32 k.length) seed =
      (mix (foldTail k.length k (hashStart (seed + BitVec.ofNat 32 k.length)))).c := by
  rw [hashBytes_eq seed (by omega), Nat.mod_eq_of_lt (by omega), Nat.div_eq_of_lt (by omega)]
  rfl

/-- The hash of the empty key is one `Mix` (R124). -/
theorem hashBytes_nil (seed : Word) : hashBytes [] 0 seed = (mix (hashStart seed)).c := by
  simpa [foldTail] using hashBytes_short (k := []) seed (by simp)

/-- A key of n zero bytes, n at most eleven, hashes like the empty key with seed s + n (R126). -/
theorem hashBytes_replicate_zero {n : Nat} (s : Word) (hn : n ≤ 11) :
    hashBytes (List.replicate n 0x00) (BitVec.ofNat 32 n) s = hashBytes [] 0 (s + BitVec.ofNat 32 n) := by
  have h := hashBytes_short (k := List.replicate n 0x00) s (by simpa using hn)
  rwa [List.length_replicate, foldTail_replicate_zero, ← hashBytes_nil] at h

/-- The empty key hashes like three zero words by the fixed path (R126, R160). -/
theorem hashBytes_nil_eq_hash3 (s : Word) : hashBytes [] 0 s = hash3 0 0 0 s := by
  rw [hashBytes_nil, hash3, hash3State, zero_add, zero_add, hashStart]

/-- Settles O57: the definition of the byte path, with what the chunk loop leaves as the tail. -/
theorem byteHashAddsTheTotalLength : Obligations.ByteHashAddsTheTotalLength :=
  ⟨fun _ _ => rfl, fun _ seed hk => hashBytes_eq seed hk⟩

/-- Settles O29: a key shorter than a chunk is all tail, and the empty key has none. -/
theorem shortKeyHashIsOneMix : Obligations.ShortKeyHashIsOneMix :=
  fun _ seed hk => ⟨hashBytes_short seed hk, hashBytes_nil seed⟩

/-- Settles O30: zero bytes add nothing, so the length term alone counts them. -/
theorem bytePathEqualities : Obligations.BytePathEqualities :=
  ⟨fun s => hashBytes_replicate_zero (n := 1) s (by decide), fun _ s hn => hashBytes_replicate_zero s hn, addTailByte_zero,
    hashBytes_nil_eq_hash3⟩

/-! ## The HASHB command (R125) -/

/-- A command with the Engine idle, its operands written and its check failed is rejected (R200, R223). -/
theorem exec_issue_rejected {i : Instr} {s : State} {e : ErrorCode} (hb : s.busy = false)
    (hw : operandsWritten i s = true) (hc : issueCheck i s = some e) : exec i s = .next (s.reject e) := by
  simpa [exec_idle i hb, hw, hc] using issue_cases i s

/-- HASHB on a key with an unwritten byte is the fault F_UNINIT_KEY (R39, R125). -/
theorem exec_hashb_unwritten {s : State} (hb : s.busy = true)
    (h : s.keymem.readBytes (s.regVal .kbase).toNat (s.regVal .len).toNat = none) :
    exec .hashb s = .fault .uninitKey := by
  simpa [h] using exec_perform_hashb hb

/-- The operands of HASHB that have a written-flag are LEN and KBASE (R39, R84). -/
theorem operandsWritten_hashb_iff (s : State) :
    operandsWritten .hashb s = true ↔ s.len.written = true ∧ s.kbase.written = true := by
  simp [operandsWritten, operandSet, State.regWritten]

/-- The check of HASHB passes a key that ends inside the key buffer (R125). -/
theorem issueCheck_hashb_inside {s : State} (h : s.kbase.value.toNat + s.len.value.toNat ≤ s.cfg.keyBytes) :
    issueCheck .hashb s = none :=
  if_neg (Nat.not_lt.2 h)

/-- The check of HASHB rejects a key that ends past the key buffer (R125). -/
theorem issueCheck_hashb_past {s : State} (h : s.cfg.keyBytes < s.kbase.value.toNat + s.len.value.toNat) :
    issueCheck .hashb s = some .keyBounds :=
  if_pos h

/-- A word with RSVD set is reserved, whatever its opcode (R86). -/
theorem decodeWord_reservedBits {w : Word} (h : w.toNat / 2 ^ 8 ≠ 0) : decodeWord w = .error .reservedBits :=
  if_pos (mt (rsvdField_eq_zero_iff w).1 h)

/-- Settles O31: the perform step by the read of its key, the issue by HASHB's operands and check, the encoding by the
decoder's fields. -/
theorem hashbHashesTheKeyBytes : Obligations.HashbHashesTheKeyBytes := by
  refine ⟨fun s k hb hl hk => ?_, fun s hb hgap => ?_, fun s hb => ⟨fun hw hin => ?_, fun hw hpast => ?_, fun hw => ?_⟩,
    fun w hop => ?_, hashBytes_nil, rfl, by decide⟩
  · exact (exec_hashb_next_iff hb).2 ⟨k, (Memory.readBytes_eq_some _ _ _ _).2 ⟨hl, hk⟩, (performHash_eq _ _).symm⟩
  · exact exec_hashb_unwritten hb ((Memory.readBytes_eq_none _ _ _).2 hgap)
  · exact exec_issue_accepted hb ((operandsWritten_hashb_iff s).2 hw) (issueCheck_hashb_inside hin)
  · exact exec_issue_rejected hb ((operandsWritten_hashb_iff s).2 hw) (issueCheck_hashb_past hpast)
  · rw [← operandsWritten_hashb_iff, Bool.not_eq_true] at hw
    exact exec_issue_unwritten hb hw
  · by_cases hr : w.toNat / 2 ^ 8 = 0
    · exact .inl (decodeWord_eq_ok_iff_toNat.2 ⟨hr, hop⟩)
    · exact .inr ⟨hr, decodeWord_reservedBits hr⟩

end Sys2Proof.Machine

namespace Sys2Proof.Machine

/-! Proofs of the word-hash family (42_word_hash.md): the group loop and the tail (R140, R142), the word path at every length
(R141), its equality with the byte path (R145), and the HASHW command (R143). -/

/-! ## The word path (R140, R141, R142) -/

/-- A tail of at most two words adds its words to a and b, the missing ones zero (R142). -/
theorem foldWordTail_length {t : List Word} (h : HashState) (ht : t.length ≤ 2) :
    foldWordTail t.length t h = ⟨h.a + t.getD 0 0, h.b + t.getD 1 0, h.c⟩ := by
  match t with
  | [] => simp [foldWordTail]
  | [w0] => simp [foldWordTail, HashState.addTo]
  | [w0, w1] => simp [foldWordTail, HashState.addTo]
  | _ :: _ :: _ :: _ => simp at ht

/-- `HashWords` of a key with its own length (R140): the full groups, four times the total length, the rest of the key as the
tail, and the final `Mix`. -/
theorem hashWords_eq_foldWordTail {k : List Word} {len : Word} (seed : Word) (hk : k.length = len.toNat) :
    hashWords k len seed =
      (mix (foldWordTail (k.length % 3) (k.drop (3 * (k.length / 3)))
        ((groupLoop (k.length / 3) k (hashStart seed)).1.addTo .c (len * 4)))).c := by
  rw [hashWords, hashWordsState, hashWordsPreFinal, groupLoop_tail, hk]

/-- What the full groups leave of a key is as long as the remainder of its length. -/
theorem length_drop_groups (k : List Word) : (k.drop (3 * (k.length / 3))).length = k.length % 3 := by
  rw [List.length_drop]
  omega

/-- The word path at every length: the tail words go to a and b, four times the total count to c (R141, R142). -/
theorem hashWords_eq {k : List Word} {len : Word} (seed : Word) (hk : k.length = len.toNat) :
    let r := (groupLoop (k.length / 3) k (hashStart seed)).1
    let tail := k.drop (3 * (k.length / 3))
    hashWords k len seed = (mix ⟨r.a + tail.getD 0 0, r.b + tail.getD 1 0, r.c + len * 4⟩).c := by
  have htail := length_drop_groups k
  rw [hashWords_eq_foldWordTail seed hk, ← htail, foldWordTail_length _ (by omega)]
  rfl

/-- A key shorter than a group is all tail (R142). -/
theorem hashWords_short {k : List Word} {len : Word} (seed : Word) (hk : k.length = len.toNat) (hlt : k.length < 3) :
    hashWords k len seed = (mix ⟨golden + k.getD 0 0, golden + k.getD 1 0, seed + len * 4⟩).c := by
  rw [hashWords_eq seed hk, Nat.div_eq_of_lt hlt]
  rfl

/-- The hash of the empty word key is one `Mix` (R143). -/
theorem hashWords_nil (seed : Word) : hashWords [] 0 seed = (mix (hashStart seed)).c := by
  simpa [hashStart] using hashWords_short (k := []) (len := 0) seed rfl (by simp)

/-- Settles O33: the loop absorbs the first group, and a key of at most two words is all tail. -/
theorem wordGroupsTailAndLengthTerm : Obligations.WordGroupsTailAndLengthTerm := by
  refine ⟨fun _ _ _ _ _ _ => rfl, hashWords_nil, fun w0 seed => ?_, fun w0 w1 seed => ?_⟩
  · simpa [golden] using hashWords_short (k := [w0]) (len := 1) seed rfl (by simp)
  · simpa [golden] using hashWords_short (k := [w0, w1]) (len := 2) seed rfl (by simp)

/-- Four times a word count below 2^30 does not wrap (R141). -/
theorem toNat_mul_four {len : Word} (h : len.toNat < 2 ^ 30) : (len * 4).toNat = 4 * len.toNat := by
  rw [BitVec.toNat_mul, show (4 : Word).toNat = 4 from rfl]
  omega

/-- Settles O58: the definition of the word path, and the size of the key buffer against the product. -/
theorem wordHashAddsFourTimesTheTotalCount : Obligations.WordHashAddsFourTimesTheTotalCount := by
  refine ⟨fun _ _ => rfl, fun k len seed hk => hashWords_eq seed hk, fun s hcfg hin => toNat_mul_four ?_⟩
  simp only [Config.wf, Bool.and_eq_true, decide_eq_true_eq] at hcfg
  omega

/-! ## The bytes of a word key (R60, R61, R145) -/

theorem leBytes_four (w : Word) :
    leBytes 4 w = [w.extractLsb' 0 8, w.extractLsb' 8 8, w.extractLsb' 16 8, w.extractLsb' 24 8] := rfl

/-- The 4n bytes of n words, each word in little-endian order (R145). -/
def wordBytes (k : List Word) : List Byte := k.flatMap (leBytes 4)

@[simp] theorem wordBytes_nil : wordBytes [] = [] := rfl

@[simp] theorem wordBytes_cons (w : Word) (k : List Word) : wordBytes (w :: k) = leBytes 4 w ++ wordBytes k := rfl

@[simp] theorem wordBytes_length (k : List Word) : (wordBytes k).length = 4 * k.length := by
  induction k with
  | nil => rfl
  | cons w k ih =>
    rw [wordBytes_cons, List.length_append, leBytes_length, ih, List.length_cons]
    omega

/-- The bytes from word j on are the bytes of the words from j on. -/
theorem wordBytes_drop (j : Nat) (k : List Word) : (wordBytes k).drop (4 * j) = wordBytes (k.drop j) := by
  induction j generalizing k with
  | zero => rfl
  | succ j ih =>
    cases k with
    | nil => simp
    | cons w k =>
      rw [Nat.mul_add_one, Nat.add_comm, ← List.drop_drop, wordBytes_cons, List.drop_left' (leBytes_length 4 w), ih,
        List.drop_succ_cons]

/-- Byte i of word j is byte 4j + i (R145). -/
theorem wordBytes_getElem? (k : List Word) {j i : Nat} (hj : j < k.length) (hi : i < 4) :
    (wordBytes k)[4 * j + i]? = some (k[j].extractLsb' (8 * i) 8) := by
  rw [← List.getElem?_drop, wordBytes_drop, List.drop_eq_getElem_cons hj, wordBytes_cons,
    List.getElem?_append_left (by simpa using hi)]
  simp [leBytes, hi]

/-- The first four bytes of a word key sum to its first word. -/
theorem leSum_take_wordBytes (k : List Word) : leSum 0 ((wordBytes k).take 4) = k.getD 0 0 := by
  cases k with
  | nil => rfl
  | cons w k => rw [wordBytes_cons, List.take_left' (leBytes_length 4 w), leSum_leBytes, List.getD_cons_zero]

/-! ## The word path and the byte path (R145) -/

/-- A group of three words adds what the chunk of their twelve bytes adds (R145). -/
theorem absorbChunk_wordBytes (k : List Word) (h : HashState) : absorbChunk (wordBytes k) h = absorbGroup k h := by
  have hword (j : Nat) : leSum 0 (((wordBytes k).drop (4 * j)).take 4) = k.getD j 0 := by
    rw [wordBytes_drop, leSum_take_wordBytes]
    simp
  simp only [absorbChunk, absorbGroup, ← hword, Nat.mul_zero, Nat.reduceMul, List.drop_zero]

/-- The chunk loop over the bytes of a word key is its group loop. -/
theorem chunkLoop_wordBytes (m : Nat) (k : List Word) (h : HashState) :
    (chunkLoop m (wordBytes k) h).1 = (groupLoop m k h).1 := by
  induction m generalizing k h with
  | zero => rfl
  | succ m ih => rw [chunkLoop, groupLoop, absorbChunk_wordBytes, show 12 = 4 * 3 from rfl, wordBytes_drop, ih]

/-- The four bytes of a word, shifted to their places, sum to it (R13). -/
theorem bytes_sum (w : Word) :
    (w.extractLsb' 0 8).setWidth 32 + ((w.extractLsb' 8 8).setWidth 32 <<< 8) +
      ((w.extractLsb' 16 8).setWidth 32 <<< 16) + ((w.extractLsb' 24 8).setWidth 32 <<< 24) = w := by
  rw [← leSum_four, ← leBytes_four, leSum_leBytes]

/-- A tail of at most two words adds what the tail of their bytes adds (R145). -/
theorem foldTail_wordBytes {t : List Word} (h : HashState) (ht : t.length ≤ 2) :
    foldTail (4 * t.length) (wordBytes t) h = foldWordTail t.length t h := by
  have hbytes := tailBytesGoWhereTheTableSays (wordBytes t) h (by rw [wordBytes_length]; omega)
  rw [wordBytes_length] at hbytes
  rw [hbytes, foldWordTail_length h ht]
  match t with
  | [] => simp
  | [w0] => simp [leBytes_four, bytes_sum]
  | [w0, w1] => simp [leBytes_four, bytes_sum]
  | _ :: _ :: _ :: _ => simp at ht

/-- The word path equals the byte path over the same bytes (R145). -/
theorem hashBytes_wordBytes {k : List Word} {len : Word} (seed : Word) (hk : k.length = len.toNat)
    (hlt : len.toNat < 2 ^ 30) : hashBytes (wordBytes k) (len * 4) seed = hashWords k len seed := by
  have hlen : BitVec.ofNat 32 (wordBytes k).length = len * 4 := by
    rw [wordBytes_length, hk, ← toNat_mul_four hlt, BitVec.ofNat_toNat, BitVec.setWidth_eq]
  have htail := length_drop_groups k
  have hdiv : 4 * k.length / 12 = k.length / 3 := by omega
  have hmod : 4 * k.length % 12 = 4 * (k.length % 3) := by omega
  have hbytes := hashBytes_eq (k := wordBytes k) seed (by rw [wordBytes_length]; omega)
  rw [hlen, wordBytes_length, hdiv, hmod, chunkLoop_wordBytes, show 12 * (k.length / 3) = 4 * (3 * (k.length / 3)) by omega,
    wordBytes_drop, ← htail, foldTail_wordBytes _ (by omega), htail] at hbytes
  rw [hbytes, hashWords_eq_foldWordTail seed hk]

/-- Two adjacent reads are one. -/
theorem Memory.readBytes_append {m : Memory} {p q a : Nat} {x y : List Byte} (hx : m.readBytes a p = some x)
    (hy : m.readBytes (a + p) q = some y) : m.readBytes a (p + q) = some (x ++ y) := by
  obtain ⟨rfl, hread⟩ := (Memory.readBytes_eq_some m p a x).1 hx
  obtain ⟨rfl, hread'⟩ := (Memory.readBytes_eq_some m q _ y).1 hy
  refine (Memory.readBytes_eq_some m _ a _).2 ⟨List.length_append, fun j hj => ?_⟩
  by_cases hlt : j < x.length
  · rw [hread j hlt, List.getElem_append_left hlt]
  · rw [List.length_append] at hj
    have hj' := hread' (j - x.length) (by omega)
    rw [List.getElem_append_right (by omega), ← hj']
    congr 1
    omega

/-- The four bytes of a word that is read are the word's own (R13). -/
theorem Memory.readBytes_of_memRead {m : Memory} {a : Nat} {w : Word} (h : m.memRead a 4 = some w) :
    m.readBytes a 4 = some (leBytes 4 w) := by
  obtain ⟨bs, hbs, rfl⟩ := Option.map_eq_some_iff.1 h
  obtain ⟨hl, -⟩ := (Memory.readBytes_eq_some m 4 a bs).1 hbs
  rw [hbs, Option.some.injEq]
  refine List.ext_getElem (by simp [hl]) fun j hj _ => ?_
  rw [← leSum_byte bs (by omega) j hj]
  simp [leBytes]

/-- Where a word key is read, it has the words asked for, and its bytes are read too (R60). -/
theorem Memory.readBytes_of_readWords {m : Memory} {n a : Nat} {k : List Word} (h : m.readWords a n = some k) :
    k.length = n ∧ m.readBytes a (4 * n) = some (wordBytes k) := by
  induction n generalizing a k with
  | zero =>
    obtain rfl := Option.some.inj h
    exact ⟨rfl, rfl⟩
  | succ n ih =>
    rw [Memory.readWords] at h
    split at h
    · cases h
    · rename_i w hw
      obtain ⟨k, hk, rfl⟩ := Option.map_eq_some_iff.1 h
      obtain ⟨hlen, hbytes⟩ := ih hk
      rw [show 4 * (n + 1) = 4 + 4 * n by omega]
      exact ⟨congrArg (· + 1) hlen, Memory.readBytes_append (Memory.readBytes_of_memRead hw) hbytes⟩

/-- Settles O34: the bytes are those of the words, which HASHB reads where HASHW reads the words. -/
theorem wordPathEqualsBytePath : Obligations.WordPathEqualsBytePath := by
  refine ⟨fun w seed hw => ⟨wordBytes w, wordBytes_length w, fun j hj i hi => wordBytes_getElem? w hj hi, ?_⟩,
    fun s t hb hlt ht => ?_⟩
  · have hlen : (BitVec.ofNat 32 w.length).toNat = w.length := by rw [BitVec.toNat_ofNat]; omega
    rw [Nat.mul_comm, BitVec.ofNat_mul]
    exact (hashBytes_wordBytes seed hlen.symm (by omega)).symm
  · obtain ⟨k, hk, rfl⟩ := (exec_hashw_next_iff hb).1 ht
    obtain ⟨hlen, hbytes⟩ := Memory.readBytes_of_readWords hk
    have hhash := hashBytes_wordBytes s.seed hlen hlt
    have hlen4 : (s.len.value * 4).toNat = 4 * (s.regVal .len).toNat := toNat_mul_four hlt
    rw [← hlen4] at hbytes
    exact ⟨_, (exec_hashb_next_iff (s := { s with len := ⟨s.len.value * 4, true⟩ }) hb).2 ⟨_, hbytes, rfl⟩,
      congrArg (FlaggedReg.mk · true) hhash⟩

/-! ## The HASHW command (R143) -/

/-- HASHW on a key with an unwritten byte is the fault F_UNINIT_KEY (R39, R143). -/
theorem exec_hashw_unwritten {s : State} (hb : s.busy = true)
    (h : s.keymem.readWords (s.regVal .kbase).toNat (s.regVal .len).toNat = none) :
    exec .hashw s = .fault .uninitKey := by
  simpa [h] using exec_perform_hashw hb

/-- The operands of HASHW are those of HASHB (R84). -/
theorem operandsWritten_hashw_iff (s : State) :
    operandsWritten .hashw s = true ↔ s.len.written = true ∧ s.kbase.written = true :=
  operandsWritten_hashb_iff s

/-- The check of HASHW rejects a misaligned key before it looks at its bounds (R143). -/
theorem issueCheck_hashw_misaligned {s : State} (h : s.kbase.value.toNat % 4 ≠ 0) :
    issueCheck .hashw s = some .keyAlign :=
  if_pos h

section
variable {s : State} (hal : s.kbase.value.toNat % 4 = 0)
include hal

/-- The check of HASHW rejects an aligned key that ends past the key buffer (R143). -/
theorem issueCheck_hashw_past (h : s.cfg.keyBytes < s.kbase.value.toNat + 4 * s.len.value.toNat) :
    issueCheck .hashw s = some .keyBounds :=
  (if_neg (not_not.2 hal)).trans (if_pos h)

/-- The check of HASHW passes an aligned key that ends inside the key buffer (R143). -/
theorem issueCheck_hashw_inside (h : s.kbase.value.toNat + 4 * s.len.value.toNat ≤ s.cfg.keyBytes) :
    issueCheck .hashw s = none :=
  (if_neg (not_not.2 hal)).trans (if_neg (Nat.not_lt.2 h))

end

/-- Settles O32: the perform step by the read of its key, the issue by HASHW's operands and check. -/
theorem hashwHashesTheKeyWords : Obligations.HashwHashesTheKeyWords := by
  refine ⟨fun s k hb hl hk => ?_, fun s hb hgap => ?_,
    fun s hb => ⟨fun hw hal => ?_, fun hw hal hpast => ?_, fun hw hal hin => ?_, fun hw => ?_⟩, hashWords_nil, rfl,
    by decide⟩
  · exact (exec_hashw_next_iff hb).2 ⟨k, Memory.readWords_eq_some _ _ _ _ hl hk, (performHash_eq _ _).symm⟩
  · exact exec_hashw_unwritten hb (Memory.readWords_eq_none _ _ _ hgap)
  · exact exec_issue_rejected hb ((operandsWritten_hashw_iff s).2 hw) (issueCheck_hashw_misaligned hal)
  · exact exec_issue_rejected hb ((operandsWritten_hashw_iff s).2 hw) (issueCheck_hashw_past hal hpast)
  · exact exec_issue_accepted hb ((operandsWritten_hashw_iff s).2 hw) (issueCheck_hashw_inside hal hin)
  · rw [← operandsWritten_hashw_iff, Bool.not_eq_true] at hw
    exact exec_issue_unwritten hb hw

end Sys2Proof.Machine

namespace Sys2Proof.Machine

/-! Proofs of the fixed-word-hash family (43_fixed_word_hash.md): the function of R160, the three commands at perform and at
issue (R162, R163, R164), and their agreement on zero words (R165). -/

/-! ## The fixed path (R160) -/

/-- The seed counts as part of the third word (R162). -/
theorem hash3_eq_seed_zero (a b c seed : Word) : hash3 a b c seed = hash3 a b (c + seed) 0 := by
  rw [hash3, hash3, hash3State, hash3State, add_zero]

/-- The worked example of R162. -/
theorem hash3_one_two_three : hash3 1 2 3 0 = 0x17e8bdc2 := by decide

/-- The same words by the word path, whose length term makes the difference (R165). -/
theorem hashWords_one_two_three : hashWords [1, 2, 3] 3 0 = 0x23a7138f := by decide

/-! ## The issue of an unchecked command (R200) -/

/-- A command without an issue check is accepted exactly where its operands hold values. -/
theorem exec_issue_unchecked {i : Instr} {s : State} {W : Prop} (hb : s.busy = false) (hc : issueCheck i s = none)
    (hW : operandsWritten i s = true ↔ W) :
    (W → exec i s = .next (s.accept i)) ∧ (¬W → exec i s = .fault .uninitReg) := by
  refine ⟨fun hw => exec_issue_accepted hb (hW.2 hw) hc, fun hw => exec_issue_unwritten hb ?_⟩
  rwa [← hW, Bool.not_eq_true] at hw

/-- The operands of HASH3 that have a written-flag are ARG0, ARG1 and ARG2 (R39, R84). -/
theorem operandsWritten_hash3_iff (s : State) :
    operandsWritten .hash3 s = true ↔ s.arg0.written = true ∧ s.arg1.written = true ∧ s.arg2.written = true := by
  simp [operandsWritten, operandSet, State.regWritten]

/-- The operands of HASH2 that have a written-flag are ARG0 and ARG1 (R39, R84). -/
theorem operandsWritten_hash2_iff (s : State) :
    operandsWritten .hash2 s = true ↔ s.arg0.written = true ∧ s.arg1.written = true := by
  simp [operandsWritten, operandSet, State.regWritten]

/-- The one operand of HASH1 that has a written-flag is ARG0 (R39, R84). -/
theorem operandsWritten_hash1_iff (s : State) : operandsWritten .hash1 s = true ↔ s.arg0.written = true := by
  simp [operandsWritten, operandSet, State.regWritten]

/-! ## The three commands on zero words (R165) -/

/-- HASH2 performs as HASH1 does where ARG1 is zero. -/
theorem exec_hash2_eq_exec_hash1 {s : State} (hb : s.busy = true) (h1 : s.arg1.value = 0) :
    exec .hash2 s = exec .hash1 s := by
  rw [exec_perform_hash2 hb, exec_perform_hash1 hb, show s.regVal .arg1 = 0 from h1]

/-- HASH3 performs as HASH2 does where ARG2 is zero. -/
theorem exec_hash3_eq_exec_hash2 {s : State} (hb : s.busy = true) (h2 : s.arg2.value = 0) :
    exec .hash3 s = exec .hash2 s := by
  rw [exec_perform_hash3 hb, exec_perform_hash2 hb, show s.regVal .arg2 = 0 from h2]

/-- Settles O38: where the words a command leaves out are zero, it performs as the one that reads them. -/
theorem fixedPathsAgreeOnZeroWords : Obligations.FixedPathsAgreeOnZeroWords := by
  refine ⟨fun s hb h1 h2 => ?_, hash3_one_two_three, hashWords_one_two_three⟩
  have e1 := exec_perform_hash1 hb
  have e2 := (exec_hash2_eq_exec_hash1 hb h1).trans e1
  have e3 := (exec_hash3_eq_exec_hash2 hb h2).trans e2
  exact ⟨_, _, _, e1, e2, e3, rfl, rfl⟩

/-! ## The three commands at perform and at issue (R162, R163, R164) -/

/-- Settles O35: HASH3 performs one `Mix` of its operands, and its issue has no check but their flags. -/
theorem hash3IsOneMixWithoutLength : Obligations.Hash3IsOneMixWithoutLength := by
  refine ⟨fun s hb => ?_, fun s hb => exec_issue_unchecked hb rfl (operandsWritten_hash3_iff s), rfl, hash3_eq_seed_zero,
    hash3_one_two_three⟩
  simp only [exec_perform_hash3 hb, performHash_eq, hash3State, golden, BitVec.ofNat_eq_ofNat, State.regVal,
    statusDone]

/-- Settles O36: HASH2 performs the fixed path with a zero third word, and neither of its steps reads ARG2. -/
theorem hash2SetsTheThirdWordToZero : Obligations.Hash2SetsTheThirdWordToZero := by
  refine ⟨fun s hb => ?_, fun s hb => exec_issue_unchecked hb rfl (operandsWritten_hash2_iff s), rfl, by decide⟩
  simp only [exec_perform_hash2 hb, performHash_eq, hash3, State.regVal, statusDone]

/-- Settles O37: HASH1 performs the fixed path with two zero words, the hash of the empty key at ARG0 = 0. -/
theorem hash1SetsTwoWordsToZero : Obligations.Hash1SetsTwoWordsToZero := by
  refine ⟨fun s hb => ?_, fun s hb => ?_, rfl, fun s => (hashBytes_nil_eq_hash3 s).symm, by decide⟩
  · simp only [exec_perform_hash1 hb, performHash_eq, hash3, State.regVal, statusDone]
  · rw [← Bool.not_eq_true]
    exact exec_issue_unchecked hb rfl (operandsWritten_hash1_iff s)

end Sys2Proof.Machine

namespace Sys2Proof.Machine

/-! Proofs of the range-mapper family (44_range_mapper.md): `MapInto` in numbers (R180, R181), its properties (R183), and
MAPR and PMAP at perform and at issue (R184, R185, R186). -/

/-! ## MapInto in numbers (R180, R181) -/

/-- The pool size does not wrap in u64, the full range included. -/
theorem poolSize_toNat {lo hi : Word} (hle : lo.toNat ≤ hi.toNat) :
    (poolSize lo hi).toNat = hi.toNat - lo.toNat + 1 := by
  have hhi := hi.isLt
  have hone : (1 : DWord).toNat = 1 := rfl
  simp only [poolSize, zext64, BitVec.toNat_add, BitVec.toNat_sub, BitVec.toNat_setWidth, hone]
  omega

/-- A hash is at most `2^32 - 1`, which bounds its product with a pool size (R181). -/
theorem hash_mul_le (h : Word) (p : Nat) : h.toNat * p ≤ (2 ^ 32 - 1) * p :=
  Nat.mul_le_mul_right p (Nat.le_pred_of_lt h.isLt)

/-- For a pool size of at most 2^32 the product is exact in u64 and its upper half fits a word. -/
theorem scaledHash_toNat (h : Word) {p : DWord} (hp : p.toNat ≤ 2 ^ 32) :
    (scaledHash h p).toNat = h.toNat * p.toNat / 2 ^ 32 := by
  have hmul := hash_mul_le h p.toNat
  have hh := h.isLt
  simp only [scaledHash, trunc32, zext64, BitVec.toNat_setWidth, BitVec.toNat_ushiftRight, BitVec.toNat_mul,
    Nat.shiftRight_eq_div_pow]
  rw [Nat.mod_eq_of_lt (show h.toNat < 2 ^ 64 by omega)]
  omega

/-- Settles O39: the pool size is at most 2^32, so the product stays below 2^64 and its upper half below the pool size. -/
theorem mapIntoWidthBounds : Obligations.MapIntoWidthBounds := by
  intro h lo hi hle
  have hsize := poolSize_toNat hle
  have hhi := hi.isLt
  have hmul := hash_mul_le h (poolSize lo hi).toNat
  have hscaled := scaledHash_toNat h (p := poolSize lo hi) (by omega)
  have hsum : (mapInto h lo hi).toNat = (lo.toNat + (scaledHash h (poolSize lo hi)).toNat) % 2 ^ 32 :=
    BitVec.toNat_add _ _
  refine ⟨hsize, ?_, ?_, ?_, hscaled, ?_, ?_⟩ <;> omega

/-- `MapInto` over exact integers: nothing in it wraps (R181). -/
theorem mapInto_toNat (h : Word) {lo hi : Word} (hle : lo.toNat ≤ hi.toNat) :
    (mapInto h lo hi).toNat = lo.toNat + h.toNat * (hi.toNat - lo.toNat + 1) / 2 ^ 32 := by
  obtain ⟨hsize, -, -, -, -, -, hmap⟩ := mapIntoWidthBounds h lo hi hle
  rw [hmap, hsize]

/-! ## Containment, the ends and order (R183) -/

theorem mapInto_self (h x : Word) : mapInto h x x = x := by
  have hh := h.isLt
  refine BitVec.eq_of_toNat_eq ?_
  rw [mapInto_toNat h le_rfl, Nat.sub_self]
  omega

theorem mapInto_full_range (h : Word) : mapInto h 0 0xFFFFFFFF = h := by
  refine BitVec.eq_of_toNat_eq ?_
  rw [mapInto_toNat h (by decide)]
  simp

/-- Settles O40: over exact integers `MapInto` is lo plus a quotient that grows with the hash, from 0 to `P - 1`. -/
theorem mapIntoStaysInThePool : Obligations.MapIntoStaysInThePool := by
  intro lo hi hle
  have hmap := fun h => mapInto_toNat h hle
  refine ⟨fun h => ?_, mapInto_self, mapInto_full_range, fun h h' hhh => ?_, BitVec.eq_of_toNat_eq ?_,
    BitVec.eq_of_toNat_eq ?_⟩
  · have hmul := hash_mul_le h (hi.toNat - lo.toNat + 1)
    have := hmap h
    omega
  · rw [hmap h, hmap h']
    exact Nat.add_le_add_left (Nat.div_le_div_right (Nat.mul_le_mul_right _ hhh)) _
  · simp [hmap]
  · rw [hmap, show (0xFFFFFFFF : Word).toNat = 2 ^ 32 - 1 from rfl]
    omega

/-! ## Balance (R183) -/

/-- The hashes whose quotient is j are those from `⌈jN/p⌉` on and below `⌈(j+1)N/p⌉`. -/
theorem mul_div_eq_iff_ceilDiv {N p : Nat} (hN : 0 < N) (hp : 0 < p) (h j : Nat) :
    h * p / N = j ↔ j * N ⌈/⌉ p ≤ h ∧ h < (j + 1) * N ⌈/⌉ p := by
  rw [← not_le (b := h), ceilDiv_le_iff_le_mul hp, ceilDiv_le_iff_le_mul hp, mul_comm p h, ← Nat.le_div_iff_mul_le hN,
    ← Nat.le_div_iff_mul_le hN]
  omega

/-- The number of hashes below N whose quotient is j: the length of their interval, which ends at N or before. -/
theorem card_mul_div_eq {N p j : Nat} (hN : 0 < N) (hj : j < p) :
    ((Finset.range N).filter fun h => h * p / N = j).card = (j + 1) * N ⌈/⌉ p - j * N ⌈/⌉ p := by
  have hp : 0 < p := Nat.zero_lt_of_lt hj
  have hend : (j + 1) * N ⌈/⌉ p ≤ N := (ceilDiv_le_iff_le_mul hp).2 (Nat.mul_le_mul_right N hj)
  have hIco : ((Finset.range N).filter fun h => h * p / N = j) = Finset.Ico (j * N ⌈/⌉ p) ((j + 1) * N ⌈/⌉ p) := by
    ext h
    rw [Finset.mem_filter, Finset.mem_range, Finset.mem_Ico, mul_div_eq_iff_ceilDiv hN hp]
    omega
  rw [hIco, Nat.card_Ico]

/-- Two ceilings N apart differ by the floor of `N / p` or by one more. -/
theorem ceilDiv_add_sub_bounds {p : Nat} (hp : 0 < p) (x N : Nat) :
    N / p ≤ (x + N) ⌈/⌉ p - x ⌈/⌉ p ∧ (x + N) ⌈/⌉ p - x ⌈/⌉ p ≤ N / p + 1 := by
  rw [Nat.ceilDiv_eq_add_pred_div, Nat.ceilDiv_eq_add_pred_div, show x + N + p - 1 = x + p - 1 + N by omega,
    Nat.add_div hp, add_assoc, Nat.add_sub_cancel_left]
  split <;> simp

/-- A hash is mapped to pool member j exactly if its quotient is j. -/
theorem mapInto_ofNat_eq_iff {lo hi : Word} (hle : lo.toNat ≤ hi.toNat) {h : Nat} (hh : h < 2 ^ 32) (j : Nat) :
    (mapInto (BitVec.ofNat 32 h) lo hi).toNat = lo.toNat + j ↔ h * (hi.toNat - lo.toNat + 1) / 2 ^ 32 = j := by
  rw [mapInto_toNat _ hle, BitVec.toNat_ofNat, Nat.mod_eq_of_lt hh, Nat.add_left_cancel_iff]

/-- The number of hashes mapped to a pool member (R183). -/
theorem card_mapInto_eq {lo hi : Word} (hle : lo.toNat ≤ hi.toNat) {j : Nat} (hj : j < hi.toNat - lo.toNat + 1) :
    ((Finset.range (2 ^ 32)).filter fun h => (mapInto (BitVec.ofNat 32 h) lo hi).toNat = lo.toNat + j).card =
      (j + 1) * 2 ^ 32 ⌈/⌉ (hi.toNat - lo.toNat + 1) - j * 2 ^ 32 ⌈/⌉ (hi.toNat - lo.toNat + 1) := by
  rw [Finset.filter_congr fun h hh => mapInto_ofNat_eq_iff hle (Finset.mem_range.1 hh) j]
  exact card_mul_div_eq (by decide) hj

/-- Settles O41: the count of a pool member is the length of an interval of hashes, and that is `2^32 / P` rounded down or
up. -/
theorem mapIntoIsBalanced : Obligations.MapIntoIsBalanced := by
  intro lo hi hle p ceilDiv count
  have hcount : ∀ j < p, count j = (j + 1) * 2 ^ 32 ⌈/⌉ p - j * 2 ^ 32 ⌈/⌉ p := fun j hj => card_mapInto_eq hle hj
  have hbounds : ∀ j < p, 2 ^ 32 / p ≤ count j ∧ count j ≤ 2 ^ 32 / p + 1 := fun j hj => by
    rw [hcount j hj, Nat.succ_mul]
    exact ceilDiv_add_sub_bounds (Nat.succ_pos _) _ _
  refine ⟨fun j hj => ?_, fun j hj k hk => ?_⟩
  · rw [hcount j hj, Nat.ceilDiv_eq_add_pred_div, Nat.ceilDiv_eq_add_pred_div]
  · exact (hbounds j hj).2.trans (Nat.succ_le_succ (hbounds k hk).1)

/-! ## The two commands at perform (R184, R185) -/

/-- MAPR performs its mapping where its precondition holds (R182, R184). -/
theorem exec_mapr_of_le {s : State} (hb : s.busy = true) (hle : s.rmin.value.toNat ≤ s.rmax.value.toNat) :
    exec .mapr s = .next (performMapr (mapInto s.arg0.value s.rmin.value s.rmax.value) s) :=
  (exec_mapr_next_iff hb).2 ⟨_, mapChecked_eq_some.2 ⟨hle, rfl⟩, rfl⟩

/-- PMAP performs the mapping of its hash where the mapping's precondition holds (R182, R185). -/
theorem exec_pmap_of_le {s : State} (hb : s.busy = true) (hle : s.rmin.value.toNat ≤ s.rmax.value.toNat) :
    exec .pmap s = .next (performPmap (hash3State s.arg0.value 0 0 s.seed)
      (mapInto (hash3State s.arg0.value 0 0 s.seed).c s.rmin.value s.rmax.value) s) :=
  (exec_pmap_next_iff hb).2 ⟨_, mapChecked_eq_some.2 ⟨hle, rfl⟩, rfl⟩

/-! ## The two commands at issue (R182, R200, R220) -/

/-- The operands of MAPR are ARG0, RMIN and RMAX (R84). -/
theorem operandsWritten_mapr_iff (s : State) :
    operandsWritten .mapr s = true ↔ s.arg0.written = true ∧ s.rmin.written = true ∧ s.rmax.written = true := by
  simp [operandsWritten, operandSet, State.regWritten]

/-- The operands of PMAP that have a written-flag are those of MAPR: SEED has none (R39, R84). -/
theorem operandsWritten_pmap_iff (s : State) :
    operandsWritten .pmap s = true ↔ s.arg0.written = true ∧ s.rmin.written = true ∧ s.rmax.written = true := by
  simp [operandsWritten, operandSet, State.regWritten]

/-- A command whose one check is RANGE: accepted where RMIN is at most RMAX, rejected where it is above, and a fault where
an operand is unwritten. -/
theorem exec_issue_range {i : Instr} {s : State} {W : Prop} (hb : s.busy = false)
    (hc : issueCheck i s = if s.rmax.value.toNat < s.rmin.value.toNat then some .range else none)
    (hW : operandsWritten i s = true ↔ W) :
    (W → s.rmin.value.toNat ≤ s.rmax.value.toNat → exec i s = .next (s.accept i)) ∧
      (W → s.rmax.value.toNat < s.rmin.value.toNat → exec i s = .next (s.reject .range)) ∧
      (¬W → exec i s = .fault .uninitReg) := by
  refine ⟨fun hw hle => ?_, fun hw hlt => ?_, fun hw => ?_⟩
  · exact exec_issue_accepted hb (hW.2 hw) (hc.trans (if_neg (Nat.not_lt.2 hle)))
  · exact exec_issue_rejected hb (hW.2 hw) (hc.trans (if_pos hlt))
  · rw [← hW, Bool.not_eq_true] at hw
    exact exec_issue_unwritten hb hw

/-- Settles O42: MAPR performs `MapInto` under its precondition, and RANGE is its one check. -/
theorem maprMapsTheHashIntoThePool : Obligations.MaprMapsTheHashIntoThePool :=
  ⟨fun _ hb hle => exec_mapr_of_le hb hle, fun s hb => exec_issue_range hb rfl (operandsWritten_mapr_iff s), mapInto_self,
    mapInto_full_range, rfl, by decide⟩

/-- Settles O43: PMAP performs `MapInto` of the fixed path's hash under its precondition, and RANGE is its one check. -/
theorem pmapHashesTheAddressThenMaps : Obligations.PmapHashesTheAddressThenMaps := by
  refine ⟨fun s hb hle => ?_, fun s hb => exec_issue_range hb rfl (operandsWritten_pmap_iff s), mapInto_self, rfl,
    by decide, by decide⟩
  simp only [exec_pmap_of_le hb hle, performPmap_eq, hash3, statusDone]

/-! ## PMAP as HASH2 followed by MAPR (R186) -/

theorem busy_of_statusBusy {s : State} (h : s.status = statusBusy) : s.busy = true := by
  rw [State.busy, h]
  decide

theorem not_busy_of_statusDone {s : State} (h : s.status = statusDone) : s.busy = false := by
  rw [State.busy, h]
  decide

/-- MAPR on the word that a hash left in RES0 writes the RES0 of PMAP's perform step on that hash, whose RES1 is the word. -/
theorem exec_mapr_of_performHash (k : HashState) {s : State} (hle : s.rmin.value.toNat ≤ s.rmax.value.toNat) :
    ∃ r, exec .mapr { performHash k s with arg0 := (performHash k s).res0, status := 0x00000001 } = .next r ∧
      r.res0 = (performPmap k (mapInto k.c s.rmin.value s.rmax.value) s).res0 ∧
      (performPmap k (mapInto k.c s.rmin.value s.rmax.value) s).res1 = (performHash k s).res0 :=
  ⟨_, exec_mapr_of_le (busy_of_statusBusy rfl) hle, rfl, rfl⟩

/-- MAPR on the word that a hash left in RES0 is rejected on an illegal pool, whatever the hash. -/
theorem exec_mapr_rejected_of_performHash (k : HashState) {s : State} (hmin : s.rmin.written = true)
    (hmax : s.rmax.written = true) (hlt : s.rmax.value.toNat < s.rmin.value.toNat) :
    exec .mapr { performHash k s with arg0 := (performHash k s).res0 } =
      .next { performHash k s with arg0 := (performHash k s).res0, status := 0x00000026 } :=
  exec_issue_rejected (e := .range) (not_busy_of_statusDone rfl) ((operandsWritten_mapr_iff _).2 ⟨rfl, hmin, hmax⟩)
    (if_pos hlt)

/-- Settles O44: HASH2 leaves the hash of PMAP where ARG1 is zero, so MAPR maps the same word; on an illegal pool PMAP is
rejected where MAPR is, and HASH2, which has no check, is not. -/
theorem pmapEqualsHash2ThenMapr : Obligations.PmapEqualsHash2ThenMapr := by
  refine ⟨fun s hb h1 hle => ?_, fun s hb h0 h1 hmin hmax hlt => ⟨?_, ?_⟩⟩
  · have hhash := (exec_hash2_eq_exec_hash1 hb h1).trans (exec_perform_hash1 hb)
    obtain ⟨r, hr⟩ := exec_mapr_of_performHash (hash3State s.arg0.value 0 0 s.seed) hle
    exact ⟨_, _, r, hhash, exec_pmap_of_le hb hle, hr⟩
  · exact exec_issue_rejected hb ((operandsWritten_pmap_iff s).2 ⟨h0, hmin, hmax⟩) (if_pos hlt)
  · have hissue := exec_issue_accepted hb ((operandsWritten_hash2_iff s).2 ⟨h0, h1⟩) rfl
    have hhash := exec_perform_hash2 (busy_accept s .hash2)
    exact ⟨_, _, hissue, hhash, rfl, exec_mapr_rejected_of_performHash _ hmin hmax hlt⟩

end Sys2Proof.Machine

namespace Sys2Proof.Machine

/-! Proofs of the control family (45_control.md): that no step is refused (R64, R182, R201), the end of a busy phase (R204),
NOP (R202), and the Engine's move (R201, R251). -/

/-! ## The Engine's move (R201, R251) -/

/-- Settles O50: an Engine that is not enabled makes no move. -/
theorem idleEngineMakesNoMove : Obligations.IdleEngineMakesNoMove :=
  fun s hb => by simpa [hb] using engineTurn_cases s

/-- A busy Engine's move is the command its latched opcode decodes to (R201). -/
theorem engineTurn_latched {s : State} {i : Instr} (hb : s.busy = true) (hd : decodeOpcode s.lop = .ok i) :
    engineTurn s = exec i s := by
  simp [engineTurn, hb, hd]

/-- A busy Engine whose LOP is past the opcode map is refused by name (R82, R201). -/
theorem engineTurn_lopNotAnOpcode {s : State} (hb : s.busy = true) (hlop : 0x08 < s.lop.toNat) :
    engineTurn s = .refused .lopNotAnOpcode := by
  rcases engineTurn_cases s with ⟨hidle, -⟩ | ⟨-, i, hd, -⟩ | ⟨-, -, he⟩
  · exact nomatch hb.symm.trans hidle
  · have hle := (exists_eq_opcodeOf_iff s.lop).1 ⟨i, decodeOpcode_eq_ok_iff.1 hd⟩
    omega
  · exact he

/-- A step is the move of the first turn of the schedule, with that turn taken (R40, R63). -/
theorem step_cons {s : State} {turn : Turn} {rest : List Turn} (hfault : s.fault = none)
    (hsch : s.schedule = turn :: rest) : step s = takeTurn turn { s with schedule := rest } := by
  rw [step_noFault hfault, nextTurn_cons hsch]

/-- Past the schedule's end the step of a busy block is the Engine's move (R204). -/
theorem step_engine_of_nil {s : State} (hfault : s.fault = none) (hb : s.busy = true) (hsch : s.schedule = []) :
    step s = engineTurn s := by
  rw [step_noFault hfault, nextTurn_nil hsch, hb]
  rfl

/-- Settles O47: the turn is the Engine's, scheduled or past the schedule's end. -/
theorem engineStepRunsTheLatchedCommand : Obligations.EngineStepRunsTheLatchedCommand := by
  intro s i rest hfault hb hd
  refine ⟨fun hsch => ?_, fun hsch => ?_⟩
  · exact (step_cons hfault hsch).trans (engineTurn_latched hb hd)
  · exact (step_engine_of_nil hfault hb hsch).trans (engineTurn_latched hb hd)

/-! ## The placed word (R67, R200) -/

/-- A command as latched by an accepted issue is the one the next step performs (R200, R201). -/
theorem step_withLatched (s : State) (i : Instr) :
    step (s.withLatched i) = exec i { s with lop := opcodeOf i, status := statusBusy, fault := none } :=
  (step_cons (turn := .engine) (rest := s.schedule) rfl rfl).trans
    (engineTurn_latched (busy_of_statusBusy rfl) (decodeOpcode_opcodeOf i))

/-- A word that is no command, as the host's next write to CMD, is rejected by the next step (R86, R200, R223). -/
theorem step_withCommandWrite_illegal {w : Word} (s : State) (hw : ¬∃ i, decodeWord w = .ok i) :
    step (s.withCommandWrite w) = .next { s with status := statusRejected .illegal, fault := none } := by
  have hidle : (s.status &&& ~~~statusBusy).getLsbD 0 = false := by
    simp [statusBusy]
  calc step (s.withCommandWrite w)
      = hostTurn { s.withCommandWrite w with schedule := s.schedule } :=
        step_cons (turn := .host) rfl rfl
    _ = hostWrite (HostReg.offset .cmd) 4 w
          { s.withCommandWrite w with program := s.program, schedule := s.schedule } := hostTurn_write rfl
    _ = .next { s with status := statusRejected .illegal, fault := none } := hostWrite_illegal hidle hw

/-- The table's numbering of a 32-bit word is the decoder's own (R81, R87). -/
theorem decodeTableWord_eq {w : Nat} (hw : w < 2 ^ 32) :
    decodeTableWord 32 w = (decodeWord (BitVec.ofNat 32 w)).toOption := by
  simp only [decodeTableWord, Nat.mod_eq_of_lt hw, if_pos hw]

/-- Settles O49: a command is placed as a latched one, any other word as the host's write to CMD. -/
theorem fetchedWordIsTheNextOneRun : Obligations.FetchedWordIsTheNextOneRun := by
  intro s w hw
  refine ⟨fun i hi => ?_, fun hnone => ?_⟩
  · rw [State.withFetchWord, hi]
    exact step_withLatched s i
  · have hword : ¬∃ i, decodeWord (BitVec.ofNat 32 w) = .ok i := by
      rintro ⟨i, hi⟩
      simp [decodeTableWord_eq hw, hi, Except.toOption] at hnone
    rw [State.withFetchWord, hnone, Nat.mod_eq_of_lt hw]
    exact step_withCommandWrite_illegal s hword

/-! ## NOP (R202) -/

/-- Settles O23: NOP has no operands and no check, and its perform step is the end of every perform step. -/
theorem nopPassesThroughIssueAndPerform : Obligations.NopPassesThroughIssueAndPerform :=
  ⟨fun _ hb => exec_perform_nop hb, fun _ hb => exec_issue_accepted hb rfl rfl, rfl, fun _ _ => decodeWord_reservedBits⟩

/-! ## What is refused, and that the invariant excludes it (R64, R180, R182, R201) -/

/-- `MapInto` is not applied where its precondition fails (R180, R182). -/
theorem mapChecked_eq_none {h lo hi : Word} (hlt : hi.toNat < lo.toNat) : mapChecked h lo hi = none :=
  if_neg (Nat.not_le.2 hlt)

/-- MAPR performed with RMIN > RMAX is refused by name (R182, U3). -/
theorem exec_mapr_refused {s : State} (hb : s.busy = true) (hlt : s.rmax.value.toNat < s.rmin.value.toNat) :
    exec .mapr s = .refused .rangePrecondition := by
  have hnone : mapChecked (s.regVal .arg0) (s.regVal .rmin) (s.regVal .rmax) = none := mapChecked_eq_none hlt
  simpa [hnone] using exec_perform_mapr hb

/-- PMAP performed with RMIN > RMAX is refused by name, whatever its hash (R182, U3). -/
theorem exec_pmap_refused {s : State} (hb : s.busy = true) (hlt : s.rmax.value.toNat < s.rmin.value.toNat) :
    exec .pmap s = .refused .rangePrecondition := by
  have hnone (h : Word) : mapChecked h (s.regVal .rmin) (s.regVal .rmax) = none := mapChecked_eq_none hlt
  simpa [hnone] using exec_perform_pmap hb

/-- A busy block that keeps the invariant has a command latched whose check passes (R64, R200). -/
theorem latched_of_inv {s : State} (hs : s.Inv) (hb : s.busy = true) :
    ∃ i, decodeOpcode s.lop = .ok i ∧ issueCheck i s = none := by
  obtain ⟨-, -, -, -, -, -, hready⟩ := inv_iff.1 hs
  obtain ⟨i, hd, -, hc⟩ := (lopReady_iff s).1 (hready hb)
  exact ⟨i, hd, hc⟩

/-- A state that keeps the invariant has no fault marked (R40). -/
theorem fault_of_inv {s : State} (hs : s.Inv) : s.fault = none := by
  obtain ⟨-, -, -, -, -, hfault, -⟩ := inv_iff.1 hs
  exact hfault

/-- The Engine's move from a state that keeps the invariant is not refused: its command is latched and its check passed
(R64, R201). -/
theorem engineTurn_ne_refused {s : State} (hs : s.Inv) (r : Refusal) : engineTurn s ≠ .refused r := by
  intro h
  cases hb : s.busy
  case false => simp [idleEngineMakesNoMove s hb] at h
  case true =>
    obtain ⟨i, hd, hc⟩ := latched_of_inv hs hb
    rw [engineTurn_latched hb hd] at h
    exact nomatch hc.symm.trans (exec_perform_refused hb h).2

/-- A command latched over a failing check breaks the invariant (R64, R200). -/
theorem not_inv_of_issueCheck {s : State} {i : Instr} {e : ErrorCode} (hb : s.busy = true) (hlop : s.lop = opcodeOf i)
    (hc : issueCheck i s = some e) : ¬s.Inv := by
  intro hs
  obtain ⟨j, hd, hj⟩ := latched_of_inv hs hb
  obtain rfl : i = j := by simpa [hlop] using hd
  exact nomatch hc.symm.trans hj

/-- Settles O9: the mapping commands by the precondition of `MapInto`, the Engine's turn by the opcode map. -/
theorem refusedFormsBreakTheInvariant : Obligations.RefusedFormsBreakTheInvariant := by
  refine fun s hb => ⟨fun hlt => ⟨exec_mapr_refused hb hlt, exec_pmap_refused hb hlt⟩, ?_, fun hlop => ?_⟩
  · rintro (hlop | hlop) hlt
    · exact not_inv_of_issueCheck (i := .mapr) hb hlop (if_pos hlt)
    · exact not_inv_of_issueCheck (i := .pmap) hb hlop (if_pos hlt)
  · have hrefused := engineTurn_lopNotAnOpcode hb hlop
    exact ⟨hrefused, fun hs => engineTurn_ne_refused hs _ hrefused⟩

/-! ## No step is refused -/

/-- The issue of a word by an idle Engine is not refused (R200). -/
theorem issueWord_ne_refused (w : Word) {s : State} (hb : s.busy = false) (r : Refusal) : issueWord w s ≠ .refused r := by
  rcases issueWord_cases w hb with ⟨-, -, hw⟩ | ⟨i, -, hw⟩
  · simp [hw]
  · rcases issue_cases i s with ⟨-, hi⟩ | ⟨-, e, -, hi⟩ | ⟨-, -, hi⟩ <;> simp [hw, hi]

/-- A host write to a register is not refused: only CMD has more to do than store or fault (R53, R56). -/
theorem hostWriteReg_ne_refused (q : HostReg) (v : Word) {s : State} (hb : s.busy = false) (r : Refusal) :
    hostWriteReg q v s ≠ .refused r := by
  cases q
  case cmd => exact issueWord_ne_refused v hb r
  case status | res0 | res1 | res2 => exact nofun
  case seed | len | kbase | rmin | rmax | arg0 | arg1 | arg2 => exact nofun

/-- A host write is not refused: it faults, or stores, or is a write to a register (R53). -/
theorem hostWrite_ne_refused (off n : Nat) (v : Word) (s : State) (r : Refusal) : hostWrite off n v s ≠ .refused r := by
  cases hb : s.busy
  case true => simp [hostWrite, hb]
  case false =>
    simp only [hostWrite, hb, Bool.false_eq_true, if_false]
    split
    · split <;> exact nofun
    · split
      · split
        · split
          next q _ => exact hostWriteReg_ne_refused q v hb r
          next => exact nofun
        · exact nofun
      · exact nofun

/-- The Host's move is not refused (R53, R55). -/
theorem hostTurn_ne_refused (s : State) (r : Refusal) : hostTurn s ≠ .refused r := by
  unfold hostTurn
  split
  next => exact nofun
  next off n v rest _ => exact hostWrite_ne_refused off n v _ r
  next => split <;> exact nofun
  next => split <;> exact nofun

/-- Settles O8: by the agent whose turn it is. -/
theorem stepIsNeverRefused : Obligations.StepIsNeverRefused := by
  intro s hs r
  rw [step_noFault (fault_of_inv hs)]
  cases (nextTurn s).1
  case host => exact hostTurn_ne_refused _ r
  case engine => exact engineTurn_ne_refused (nextTurn_inv hs) r
  case reset => exact nofun

/-! ## The end of a busy phase (R204) -/

/-- A run of at most n steps from s reaches an idle block or a model fault. -/
def EndsWithin (n : Nat) (s : State) : Prop :=
  ∃ k ≤ n, (∃ t, runSteps k s = .next t ∧ t.busy = false) ∨ ∃ r, runSteps k s = .fault r

theorem endsWithin_of_idle {s : State} (n : Nat) (hb : s.busy = false) : EndsWithin n s :=
  ⟨0, n.zero_le, .inl ⟨s, rfl, hb⟩⟩

theorem endsWithin_of_fault {s : State} {r : Fault} (n : Nat) (h : step s = .fault r) : EndsWithin (n + 1) s :=
  ⟨1, n.succ_pos, .inr ⟨r, by simp [runSteps, h]⟩⟩

theorem endsWithin_of_next {s t : State} {n : Nat} (h : step s = .next t) (ht : EndsWithin n t) :
    EndsWithin (n + 1) s := by
  obtain ⟨k, hk, hrun⟩ := ht
  have hsucc : runSteps (k + 1) s = runSteps k t := by simp [runSteps, h]
  exact ⟨k + 1, Nat.succ_le_succ hk, by rwa [hsucc]⟩

/-- From a state that keeps the invariant a run ends within one step more than from every state its step can leave. -/
theorem endsWithin_of_step {s : State} {n : Nat} (hs : s.Inv) (h : ∀ t, step s = .next t → EndsWithin n t) :
    EndsWithin (n + 1) s := by
  cases hstep : step s with
  | next t => exact endsWithin_of_next hstep (h t hstep)
  | fault r => exact endsWithin_of_fault n hstep
  | refused r => exact absurd hstep (stepIsNeverRefused s hs r)

/-- The Engine's move leaves the block idle (R201). -/
theorem engineTurn_leaves_idle {s t : State} (h : engineTurn s = .next t) : t.busy = false := by
  rcases engineTurn_next h with ⟨hb, rfl⟩ | ⟨-, ht⟩
  · exact hb
  · exact not_busy_of_statusDone (congrArg State.status ht)

/-- The Host's move on a busy block changes the host's side of the machine alone (R260). -/
theorem hostTurn_busy {s t : State} (hb : s.busy = true) (h : hostTurn s = .next t) :
    ∃ p rs, t = { s with program := p, reads := rs } := by
  cases hostTurn_done h with
  | hostSide p rs => exact ⟨p, rs, rfl⟩
  | write _ _ _ _ _ _ hidle => exact nomatch hb.symm.trans hidle

/-- Settles O52: by induction on the schedule. The Engine and reset end the busy phase at their turn; the Host's turn
leaves it as it was, with that turn taken. -/
theorem busyEndsWithinTheSchedule : Obligations.BusyEndsWithinTheSchedule := by
  intro s hs hb
  change EndsWithin (s.schedule.length + 1) s
  induction hsch : s.schedule generalizing s with
  | nil =>
    refine endsWithin_of_step hs fun t ht => endsWithin_of_idle _ ?_
    rw [step_engine_of_nil (fault_of_inv hs) hb hsch] at ht
    exact engineTurn_leaves_idle ht
  | cons turn rest ih =>
    refine endsWithin_of_step hs fun t ht => ?_
    rw [step_cons (fault_of_inv hs) hsch] at ht
    cases turn with
    | host =>
      obtain ⟨p, rs, rfl⟩ := hostTurn_busy (s := { s with schedule := rest }) hb ht
      exact ih _ hs hb rfl
    | engine => exact endsWithin_of_idle _ (engineTurn_leaves_idle ht)
    | reset =>
      obtain rfl := Host.Outcome.next.inj ht
      exact endsWithin_of_idle _ (busy_platformReset _)

end Sys2Proof.Machine

namespace Sys2Proof.Machine

/-! Proofs of the exceptions family (60_exceptions.md): the endings of an issue (R200, R220, R223). -/

/-! ## The fields of STATUS after a rejection (R25 to R27, R220, R223) -/

@[simp] theorem done_reject (s : State) (e : ErrorCode) : (s.reject e).done = true := by
  change (statusRejected e).getLsbD 1 = true
  cases e <;> decide

@[simp] theorem err_reject (s : State) (e : ErrorCode) : (s.reject e).err = true := by
  change (statusRejected e).getLsbD 2 = true
  cases e <;> decide

@[simp] theorem ecode_reject (s : State) (e : ErrorCode) : (s.reject e).ecode = e.code := by
  change (statusRejected e).extractLsb' 4 4 = e.code
  cases e <;> decide

/-- ECODE after a rejection is one of the codes 1 to 4 (R27, R220). -/
theorem ecode_reject_bounds (s : State) (e : ErrorCode) :
    1 ≤ (s.reject e).ecode.toNat ∧ (s.reject e).ecode.toNat ≤ 4 := by
  rw [ecode_reject]
  cases e <;> decide

/-! ## The endings of an issue (R200, R223) -/

/-- A command's opcode is the low byte of the word it is decoded from (R80, R81). -/
theorem opcodeOf_of_decodeWord {w : Word} {i : Instr} (hd : decodeWord w = .ok i) : opcodeOf i = w.extractLsb' 0 8 :=
  (decodeWord_eq_ok_iff.1 hd).2.symm

/-- The acceptance of a command word, whole: LOP takes the low byte of the word, and STATUS is 1 (R200). -/
theorem accept_of_decodeWord {w : Word} {i : Instr} (hd : decodeWord w = .ok i) (s : State) :
    s.accept i = { s with lop := w.extractLsb' 0 8, status := 0x00000001 } := by
  rw [← opcodeOf_of_decodeWord hd]
  rfl

/-- A write of a word to CMD, with the Engine idle, ends in one of three ways: the command is accepted, the word is
rejected, or an operand register of the command is unwritten (R39, R53, R200). -/
theorem hostWrite_cmd_cases (w : Word) {s : State} (hb : s.busy = false) :
    (∃ i, decodeWord w = .ok i ∧ hostWrite (HostReg.offset .cmd) 4 w s = .next (s.accept i)) ∨
      (∃ e, hostWrite (HostReg.offset .cmd) 4 w s = .next (s.reject e)) ∨
      (∃ i, decodeWord w = .ok i ∧ hostWrite (HostReg.offset .cmd) 4 w s = .fault .uninitReg) := by
  by_cases hword : ∃ i, decodeWord w = .ok i
  · obtain ⟨i, hd⟩ := hword
    rw [hostWrite_command hb hd, exec_idle i hb]
    rcases issue_cases i s with ⟨-, hfault⟩ | ⟨-, e, -, hrej⟩ | ⟨-, -, hacc⟩
    · exact .inr (.inr ⟨i, hd, hfault⟩)
    · exact .inr (.inl ⟨e, hrej⟩)
    · exact .inl ⟨i, hd, hacc⟩
  · exact .inr (.inl ⟨.illegal, hostWrite_illegal hb hword⟩)

/-- Settles O22: by the ending of the issue. A rejection leaves BUSY = 0, so the Engine has no move to make. -/
theorem issueAcceptsOrRejectsPrecisely : Obligations.IssueAcceptsOrRejectsPrecisely := by
  intro s w hb
  rcases hostWrite_cmd_cases w hb with ⟨i, hd, hacc⟩ | ⟨e, hrej⟩ | hfault
  · exact .inl ⟨i, hd, accept_of_decodeWord hd s ▸ hacc⟩
  · obtain ⟨hmin, hmax⟩ := ecode_reject_bounds s e
    exact .inr (.inl ⟨e, hrej, busy_reject s e, done_reject s e, err_reject s e, ecode_reject s e, hmin, hmax,
      idleEngineMakesNoMove _ (busy_reject s e)⟩)
  · exact .inr (.inr hfault)

end Sys2Proof.Machine

namespace Sys2Proof.Machine

/-! Proofs of the reset family (70_reset_and_hazards.md): what a busy block answers the host (R260), what reset leaves and
the turn that takes it (R250), and that the reset state keeps the invariant. -/

/-! ## Accesses while busy (R53, R55, R260) -/

/-- A host write while BUSY = 1 is F_BUSY_ACCESS, before any other test (R53). -/
theorem hostWrite_busy {s : State} (off n : Nat) (v : Word) (hb : s.busy = true) :
    hostWrite off n v s = .fault .busyAccess :=
  if_pos hb

/-- A host read while BUSY = 1 is F_BUSY_ACCESS, unless it is the 32-bit read of STATUS (R55). -/
theorem hostRead_busy {s : State} {off n : Nat} (hb : s.busy = true) (h : ¬(off = HostReg.offset .status ∧ n = 4)) :
    hostRead off n s = .error .busyAccess :=
  if_pos (by simpa [hb, ← imp_iff_not_or] using h)

/-- Settles O20: BUSY is the first test of either access, and the 32-bit read of STATUS alone passes it. -/
theorem busyAllowsOnlyStatusReads : Obligations.BusyAllowsOnlyStatusReads := by
  intro s hb
  refine ⟨fun off n v => hostWrite_busy off n v hb, fun off n h => hostRead_busy hb h, ?_⟩
  exact hostRead_register (r := .status) (fun _ => rfl) rfl

/-! ## Reset (R250) -/

/-- After reset only the three registers that have no written-flag count as written (R39, R250). -/
theorem platformReset_regWritten (s : State) (r : HostReg) :
    s.platformReset.regWritten r = decide (r ∈ [HostReg.cmd, .status, .seed]) := by
  cases r <;> rfl

/-- Settles O4: the cleared written-flags and the empty key buffer are what the reads of a register and of the key window
fault on. -/
theorem resetLeavesTheResetState : Obligations.ResetLeavesTheResetState := by
  intro s
  have hb := busy_platformReset s
  refine ⟨rfl, rfl, hb, rfl, rfl, rfl, fun r hr => ?_, fun _ => rfl, fun off n hlo hhi hn ha => ?_⟩
  · have hw : s.platformReset.regWritten r = false := by
      rw [platformReset_regWritten]
      revert r
      decide
    exact ⟨hw, hostRead_register_unwritten hb hw⟩
  · have hgap : ∃ j < n, s.platformReset.keymem.read (off - 0x1000 + j) = none := ⟨0, by omega, rfl⟩
    exact (keyReadGivesBytesOrFaults _ off n hb hlo hhi hn ha).2 hgap

/-- Settles O5: a scheduled reset turn is the step, and the block's own reset state is not changed by a reset. -/
theorem resetTurnResets : Obligations.ResetTurnResets :=
  ⟨fun _ _ hfault hsch => step_cons hfault hsch, rfl, rfl⟩

/-- The reset state is idle (R24, R250). -/
@[simp] theorem busy_resetWith (cfg : Config) : (State.resetWith cfg).busy = false :=
  busy_platformReset (State.resetWith cfg)

/-- The reset state keeps the invariant for legal parameters: no key byte, no accumulators, no fault mark, STATUS zero and
so not busy (R8, R250). -/
theorem resetWith_inv {cfg : Config} (hcfg : cfg.wf = true) : (State.resetWith cfg).Inv :=
  inv_iff.2 ⟨hcfg, rfl, rfl, rfl, rfl, rfl, by simp⟩

/-- Settles O6: the parameters of `State.reset` are legal. -/
theorem resetMeetsTheInvariant : Obligations.ResetMeetsTheInvariant :=
  ⟨fun _ hcfg => resetWith_inv hcfg, resetWith_inv (by decide)⟩

end Sys2Proof.Machine
